-- ==== Sys2Proof/Word.lean ====
section
/-! DEFINITION. The values the device transfers and the indices its operations name (spec/00_scope.md R7, R8; spec/20_memory.md R40, R41). -/

namespace Sys2Proof

/-- The one unit of transfer (R7 `DATA_W` = 8). Bit 0 is the least significant bit (R8). -/
abbrev Byte := BitVec 8

/-- The level of a line: `false` is 0, `true` is 1 (R8, R21, R22). -/
abbrev Level := Bool

/-- A channel index, or the in-chip slot address `a` of 2 bits (R7 `NCH`, `ADDR_W`; R12, R40). -/
abbrev ChanIx := Fin 4

/-- The channel indices in the order every rule walks them (R103, R134). -/
def chanIxs : List ChanIx := [0, 1, 2, 3]

/-- The seven fields of a control word besides its marker bit 0 (R62). A field is `true` where R62's table says "value 1". -/
structure ControlWord where
  /-- `I`: interrupt enabled. -/
  intEn : Bool
  /-- `M`: COUNTER mode; `false` is TIMER mode. -/
  counter : Bool
  /-- `P`: prescaler factor 256; `false` is 16. -/
  prescale256 : Bool
  /-- `E`: rising edges qualify; `false` is falling. -/
  rising : Bool
  /-- `T`: the timer starts on a qualifying edge (effective on `TRIG_CHANNELS` only). -/
  trigger : Bool
  /-- `F`: the next byte written to this channel is its time constant. -/
  follows : Bool
  /-- `R`: software reset. -/
  swReset : Bool
deriving DecidableEq, Repr

end Sys2Proof
end

