-- ==== Sys2Proof/Config.lean ====
section
/-! DEFINITION. The implementation parameters of spec/00_scope.md R7: those the source fixes as constants, those that a decision of the spec fixes as a record with the stated defaults, and the one free value. -/

namespace Sys2Proof

/-- Where one field of the control word stands and which bit value makes the field "value 1" of R62. -/
structure CwField where
  pos : Nat
  active : Bool
deriving DecidableEq, Repr

/-- `CW_LAYOUT` (R7, R62): the places and polarities of the seven fields above the marker bit 0. -/
structure CwLayout where
  intEn : CwField
  counter : CwField
  prescale256 : CwField
  rising : CwField
  trigger : CwField
  follows : CwField
  swReset : CwField
deriving DecidableEq, Repr

/-- The default of `CW_LAYOUT` in R62, as the spec gives it (its decision D3). UNVERIFIED, unsafe if the hardware's layout differs: notes/assumptions/6.md. -/
def Config.cwLayout : CwLayout where
  intEn := ⟨7, true⟩
  counter := ⟨6, true⟩
  prescale256 := ⟨5, true⟩
  rising := ⟨4, true⟩
  trigger := ⟨3, true⟩
  follows := ⟨2, true⟩
  swReset := ⟨1, true⟩

/-- `TRIG_CHANNELS` = {0} (R7, R13, decision D23). -/
def Config.trigChannels : List ChanIx := [0]

/-- `TC_MAX`: what a written time constant of 0 stands for (R7, R15, R63). -/
def Config.tcMax : Nat := 256

/-- The smaller of the two `PRESCALE` factors (R7). -/
def Config.prescaleShort : Nat := 16

/-- The larger of the two `PRESCALE` factors (R7). -/
def Config.prescaleLong : Nat := 256

/-- `VEC_STRIDE` (R7, R66). -/
def Config.vecStride : Nat := 2

/-- `EXT_LEVEL_POWERON` (R7, decision D11). -/
def Config.extLevelPowerOn : Level := false

/-- `ZC_POWERON` (R7, decisions D11, D18). -/
def Config.zcPowerOn : Level := false

/-- The power-up value of `down` and of `tc` (R31, 93_implementation_defined.md U10). -/
def Config.countPowerOn : Nat := 256

/-- `IEI_HEAD`: the interrupt-enable-in of the first chip of a chain (R7, R140). -/
def Config.ieiHead : Level := true

/-- `VECTOR_POWERON` of each chip: an unspecified byte, drawn once at power-on (R7, R24, decision D11, N5 "a draw, not 0"). A FREE VALUE, the default of the argument `draw` of `State.powerOn`: it has no body, so nothing can be proved of it; safe. DESIGN CHOICE of form: notes/assumptions/4.md. -/
opaque Config.vectorPowerOn : Nat → Byte

/-- The parameters of R7 that are marked with a decision (and the power-up count, U10), each an argument with the stated default. A machine holds its own in `State.params`, and no operation writes them: notes/assumptions/17.md. -/
structure Params where
  /-- `CW_LAYOUT` (decision D3). -/
  cwLayout : CwLayout := Config.cwLayout
  /-- `TRIG_CHANNELS` (decision D23). -/
  trigChannels : List ChanIx := Config.trigChannels
  /-- `EXT_LEVEL_POWERON` (decision D11). -/
  extLevelPowerOn : Level := Config.extLevelPowerOn
  /-- `ZC_POWERON` (decisions D11, D18). -/
  zcPowerOn : Level := Config.zcPowerOn
  /-- The power-up value of `down` and `tc` (93_implementation_defined.md U10). -/
  countPowerOn : Nat := Config.countPowerOn
  /-- `IEI_HEAD` (decision D19). -/
  ieiHead : Level := Config.ieiHead
deriving DecidableEq, Repr

/-- The parameters at their stated defaults: this hardware (R7). -/
def Config.params : Params := {}

/-- The places of the seven fields of a control word. -/
def CwLayout.places (L : CwLayout) : List Nat :=
  [L.intEn.pos, L.counter.pos, L.prescale256.pos, L.rising.pos, L.trigger.pos, L.follows.pos,
   L.swReset.pos]

/-- A layout gives each field one of the bits 7 to 1 for its own; bit 0 is the marker (R13, R62). -/
def CwLayout.wf (L : CwLayout) : Bool := L.places.isPerm [7, 6, 5, 4, 3, 2, 1]

/-- Legal parameters: a layout of R62's kind, and a power-up count in the range of R15 and R16. DESIGN CHOICE, notes/assumptions/17.md. -/
def Params.wf (p : Params) : Bool :=
  p.cwLayout.wf && decide (1 ≤ p.countPowerOn) && decide (p.countPowerOn ≤ Config.tcMax)

/-- How many chips `State.reset` holds. `NCHIPS` is open (R7); every operation is defined for any number. DESIGN CHOICE, notes/assumptions/3.md. -/
def Config.nChips : Nat := 3

end Sys2Proof
end

