-- ==== Sys2Proof/Syntax.lean ====
section
/-! DEFINITION. The operations of the device, one constructor for each row of spec/opcode_table.json (spec/00_scope.md R5, spec/30_encoding.md R69). -/

namespace Sys2Proof

/-- One decoded operation. `k` is the number of the chip it is invoked on, its place among the chips that are present (R70: "the chip is named first"; the spec names chips by letters, the number is the model's name: notes/assumptions/8.md, DESIGN CHOICE, safe); the other fields are those of the row's `encoding` pattern in the table. -/
inductive Instr where
  /-- `WR.VEC` (R121): the byte `vvvvvvv0` to slot 0 of chip `k`. -/
  | wrVec (k : Nat) (v : BitVec 7)
  /-- `WR.CTRL` (R81): the control word `IMPETFR1` to channel `i` of chip `k`. -/
  | wrCtrl (k : Nat) (i : ChanIx) (w : ControlWord)
  /-- `WR.TC` (R82): the time constant byte `vvvvvvvv` to channel `i` of chip `k`. -/
  | wrTc (k : Nat) (i : ChanIx) (v : Byte)
  /-- `WR.IGN` (R85): the byte `xxxxxxx0` to channel `i` in 1..3 of chip `k`. -/
  | wrIgn (k : Nat) (i : ChanIx) (x : BitVec 7)
  /-- `RD` (R86). -/
  | rd (k : Nat) (i : ChanIx)
  /-- `TRG` (R100): the external input of channel `i` is observed at level `l`. -/
  | trg (k : Nat) (i : ChanIx) (l : Level)
  /-- `TICK` (R103): one master-clock period of chip `k`. -/
  | tick (k : Nat)
  /-- `RESET` (R192): hardware reset of chip `k`. -/
  | reset (k : Nat)
  /-- `STATUS` (R132) with the interrupt-enable-in `iei`. -/
  | status (k : Nat) (iei : Level)
  /-- `ACK` (R136). -/
  | ack (k : Nat)
  /-- `RETI` (R138). -/
  | reti (k : Nat)
  /-- `CHAIN.IRQ` (R141) on the chips `cs`, highest priority first. -/
  | chainIrq (cs : List Nat)
  /-- `CHAIN.ACK` (R142) on the chips `cs`, highest priority first. -/
  | chainAck (cs : List Nat)
  /-- `CHAIN.RETI` (R143) on the chips `cs`, highest priority first. -/
  | chainReti (cs : List Nat)
deriving DecidableEq, Repr

end Sys2Proof
end

