-- ==== Sys2Proof/WellFormed.lean ====
section
/-! DEFINITION. Which terms of `Instr` stand for an operation of the spec: the conditions that the type itself does not enforce. -/

namespace Sys2Proof

/-- `WR.IGN` exists on slots 1 to 3 only (R61, R85). A chain is an ordered list of chips, each in one place of it (R140). Every other term is an operation. -/
def Instr.wellFormed : Instr → Bool
  | .wrVec _ _ => true
  | .wrCtrl _ _ _ => true
  | .wrTc _ _ _ => true
  | .wrIgn _ i _ => decide (i ≠ 0)
  | .rd _ _ => true
  | .trg _ _ _ => true
  | .tick _ => true
  | .reset _ => true
  | .status _ _ => true
  | .ack _ => true
  | .reti _ => true
  | .chainIrq cs => decide cs.Nodup
  | .chainAck cs => decide cs.Nodup
  | .chainReti cs => decide cs.Nodup

end Sys2Proof
end

