-- ==== Sys2Proof/Decode.lean ====
section
/-! DEFINITION. What an agent invokes (spec/00_scope.md R5) and how it decodes: the byte of a `WR` by spec/30_encoding.md R61 and spec/42_controller.md R120, every other operation as itself (R69 `EVENT`, `RDD`, `AVEC`); then the encoder. No written byte is illegal (R67), so decoding a request refuses nothing. -/

namespace Sys2Proof

/-- An operation as an agent invokes it, one constructor for each of the eleven operations of R5. -/
inductive Request where
  | wr (k : Nat) (a : ChanIx) (b : Byte)
  | rd (k : Nat) (a : ChanIx)
  | trg (k : Nat) (i : ChanIx) (l : Level)
  | tick (k : Nat)
  | reset (k : Nat)
  | status (k : Nat) (iei : Level)
  | ack (k : Nat)
  | reti (k : Nat)
  | chainIrq (cs : List Nat)
  | chainAck (cs : List Nat)
  | chainReti (cs : List Nat)
deriving DecidableEq, Repr

/-- The value of one control-word field in a byte. -/
def CwField.get (f : CwField) (b : Byte) : Bool := b.getLsbD f.pos == f.active

/-- The byte that holds one control-word field and zeros. -/
def CwField.put (f : CwField) (v : Bool) : Byte :=
  if v == f.active then BitVec.twoPow 8 f.pos else 0#8

/-- The fields of a control word byte (R62), under a layout. -/
def ControlWord.ofByte (b : Byte) (L : CwLayout := Config.cwLayout) : ControlWord where
  intEn := L.intEn.get b
  counter := L.counter.get b
  prescale256 := L.prescale256.get b
  rising := L.rising.get b
  trigger := L.trigger.get b
  follows := L.follows.get b
  swReset := L.swReset.get b

/-- The control word as written, marker bit 0 = 1 included (R62), under a layout. -/
def ControlWord.toByte (w : ControlWord) (L : CwLayout := Config.cwLayout) : Byte :=
  L.intEn.put w.intEn ||| L.counter.put w.counter |||
  L.prescale256.put w.prescale256 ||| L.rising.put w.rising |||
  L.trigger.put w.trigger ||| L.follows.put w.follows |||
  L.swReset.put w.swReset ||| 1#8

/-- The byte whose bits 7..1 are `v` and whose bit 0 is 0 (formats `VEC` and `NONE`, R64, R67). -/
def evenByte (v : BitVec 7) : Byte := v ++ 0#1

/-- Bits 7..1 of a byte. -/
def upperBits (b : Byte) : BitVec 7 := b.extractLsb' 1 7

/-- The number a time-constant byte stands for: 0 means 256 (R63). -/
def tcOfByte (v : Byte) : Nat := if v = 0#8 then Config.tcMax else v.toNat

/-- `ChannelWrite(i, b)`: a byte forwarded to channel `i` (R80). -/
def decodeChannelWrite (p : Params) (k : Nat) (i : ChanIx) (awaitTc : Bool) (b : Byte) : Instr :=
  if awaitTc then .wrTc k i b
  else if b[0] then .wrCtrl k i (ControlWord.ofByte b p.cwLayout)
  else .wrIgn k i (upperBits b)

/-- The routing of a written byte (R120, R61): `awaitTc` is `ch[a].await_tc` before the write. -/
def decodeWrite (p : Params) (k : Nat) (a : ChanIx) (awaitTc : Bool) (b : Byte) : Instr :=
  if a = 0 ∧ awaitTc = false ∧ b[0] = false then .wrVec k (upperBits b)
  else decodeChannelWrite p k a awaitTc b

/-- The instruction of a request. `awaitTc` is the `await_tc` of the addressed channel, the only state that changes decoding (R14, R61); it matters to `WR` alone. Of the parameters `p`, only `CW_LAYOUT` matters. -/
def decode (awaitTc : Bool) (r : Request) (p : Params := Config.params) : Instr :=
  match r with
  | .wr k a b => decodeWrite p k a awaitTc b
  | .rd k a => .rd k a
  | .trg k i l => .trg k i l
  | .tick k => .tick k
  | .reset k => .reset k
  | .status k iei => .status k iei
  | .ack k => .ack k
  | .reti k => .reti k
  | .chainIrq cs => .chainIrq cs
  | .chainAck cs => .chainAck cs
  | .chainReti cs => .chainReti cs

/-- What the written byte `w` decodes to where the table alone is asked: the byte arrives at slot 0 of chip 0 while channel 0 awaits nothing, the parameters at their defaults. The table's 8-bit item is the written byte and nothing else (R60); an item of another length is none of the spec's. notes/assumptions/10.md. -/
def decodeTableWord (nbits w : Nat) : Option Instr :=
  if nbits = 8 then some (decode false (.wr 0 0 (BitVec.ofNat 8 w))) else none

/-- The request that carries an instruction: its slot and its byte for the four `WR` rows (R62 to R64), itself for the others. Of the parameters `p`, only `CW_LAYOUT` matters. -/
def encode (i : Instr) (p : Params := Config.params) : Request :=
  match i with
  | .wrVec k v => .wr k 0 (evenByte v)
  | .wrCtrl k i w => .wr k i (w.toByte p.cwLayout)
  | .wrTc k i v => .wr k i v
  | .wrIgn k i x => .wr k i (evenByte x)
  | .rd k i => .rd k i
  | .trg k i l => .trg k i l
  | .tick k => .tick k
  | .reset k => .reset k
  | .status k iei => .status k iei
  | .ack k => .ack k
  | .reti k => .reti k
  | .chainIrq cs => .chainIrq cs
  | .chainAck cs => .chainAck cs
  | .chainReti cs => .chainReti cs

/-- The `await_tc` of the addressed channel under which an instruction is selected (R61, R69 column `when`). -/
def awaitFor : Instr → Bool
  | .wrTc _ _ _ => true
  | _ => false

end Sys2Proof
end

