-- ==== Sys2Proof/Machine/State.lean ====
section
/-! DEFINITION. The state of the machine: the records of spec/10_state.md R10 and R11 for every chip that is present, what its environment has still to invoke, and what the last operation returned; then power-on and reset. -/

namespace Sys2Proof.Machine

/-- The countdown state of a channel (R20). -/
inductive RunState where
  | stopped
  | waitTrig
  | armed
deriving DecidableEq, Repr

/-- The interrupt state of a channel (R23). -/
inductive IntState where
  | none
  | pending
  | asserted
deriving DecidableEq, Repr

/-- The status of a chip in its chain (R8, R130). -/
inductive ChainStatus where
  | none
  | pending
  | asserted
deriving DecidableEq, Repr

/-- One channel (R11). -/
structure Channel where
  /-- R12: its place in the chip, constant. -/
  index : ChanIx
  /-- R13: the last control word, byte for byte. -/
  mode : Byte
  /-- R14: the next byte written to this channel is its time constant. -/
  awaitTc : Bool
  /-- R15: the time constant, 1..256. -/
  tc : Nat
  /-- R16: the down-counter, 1..256 between operations. -/
  down : Nat
  /-- R19: master-clock ticks since the last decrement, timer mode. -/
  psc : Nat
  /-- R20. -/
  run : RunState
  /-- R21: the last observed level of the external input. -/
  extLevel : Level
  /-- R22: the level of the timeout output. -/
  zc : Level
  /-- R23. -/
  intState : IntState
deriving DecidableEq, Repr

/-- One chip (R10). -/
structure Chip where
  /-- R25: a `RESET` has happened since power-on. -/
  inited : Bool
  /-- R24: the base interrupt vector. -/
  vector : Byte
  /-- R10: `ch[0]` to `ch[3]`. -/
  ch : Vector Channel 4
deriving DecidableEq, Repr

/-- `ch[i]` of a chip (R8, R10). -/
def Chip.chan (k : Chip) (i : ChanIx) : Channel := k.ch[i]

/-- What an operation returns to the agent that invoked it (R5, column "result"). -/
inductive Result where
  /-- The operation returns nothing. -/
  | nothing
  /-- `RD`, `ACK`, `CHAIN.ACK`. -/
  | byte (b : Byte)
  /-- `STATUS`. -/
  | status (st : ChainStatus)
  /-- `RETI`, `CHAIN.IRQ`, `CHAIN.RETI`. -/
  | truth (h : Bool)
deriving DecidableEq, Repr

/-- The machine. The chain order is no part of it (R30). -/
structure State where
  /-- The parameters of this machine (R7), constant: no operation writes them (notes/assumptions/17.md, DESIGN CHOICE, safe). -/
  params : Params
  /-- The chips that are present; a chip's number is its place (R174). They share no state. -/
  chips : List Chip
  /-- The model's own: the operations the environment will invoke, the next one first. It is the environment's free choice (R6, R48, D24). DESIGN CHOICE, notes/assumptions/1.md. -/
  requests : List Request
  /-- The model's own: what the last operation returned. DESIGN CHOICE, notes/assumptions/7.md. -/
  result : Result
deriving DecidableEq, Repr

/-- Contract violations (R160, R164): the outcome ends the run and no state follows. -/
inductive Fault where
  /-- Raised by the four `WR` decodings on a chip that has had no `RESET` (R161). The spec's own fault; safe. -/
  | writeBeforeInit
  /-- Raised by `ACK` when the chip's status is not PENDING (R162). The spec's own fault; safe. -/
  | ackNotPending
  /-- Raised by `CHAIN.ACK` when the chain requests nothing (R162). The spec's own fault; safe. -/
  | chainAckNoRequest
deriving DecidableEq, Repr

/-- Situations that are given no meaning. -/
inductive Refusal where
  /-- An arm of `exec` without a meaning. No arm answers so in this model; safe. -/
  | notModelled (mnemonic : String)
  /-- Raised by `WR.CTRL` in the one situation the spec refuses (R84, R163). The spec's own refusal; safe. -/
  | ctrlDropsTriggerWait
  /-- Raised by every operation whose operand names a chip that is not present: there is nothing it could act on. The model's own (notes/assumptions/8.md), DESIGN CHOICE, safe. -/
  | noSuchChip
deriving DecidableEq, Repr

/-- Channel `i` at power-on (R31, R190), under the parameters `p`. The spec's own values (decision D11): notes/assumptions/5.md. -/
def Channel.powerOn (p : Params) (i : ChanIx) : Channel where
  index := i
  mode := 0x03#8
  awaitTc := false
  tc := p.countPowerOn
  down := p.countPowerOn
  psc := 0
  run := .stopped
  extLevel := p.extLevelPowerOn
  zc := p.zcPowerOn
  intState := .none

/-- A chip at power-on (R31, R190): `vector` is its draw `VECTOR_POWERON`. -/
def Chip.powerOn (p : Params) (draw : Byte) : Chip where
  inited := false
  vector := draw
  ch := #v[Channel.powerOn p 0, Channel.powerOn p 1, Channel.powerOn p 2, Channel.powerOn p 3]

/-- Channel `i` after power-on and one `RESET` (R31): `tc`, `down`, `ext_level` are retained, so they hold their power-on values. -/
def Channel.afterReset (p : Params) (i : ChanIx) : Channel where
  index := i
  mode := 0x03#8
  awaitTc := false
  tc := p.countPowerOn
  down := p.countPowerOn
  psc := 0
  run := .stopped
  extLevel := p.extLevelPowerOn
  zc := false
  intState := .none

/-- A chip after power-on and one `RESET` (R31): `vector` is retained. -/
def Chip.afterReset (p : Params) (draw : Byte) : Chip where
  inited := true
  vector := draw
  ch := #v[Channel.afterReset p 0, Channel.afterReset p 1, Channel.afterReset p 2,
    Channel.afterReset p 3]

/-- `n` chips at power-on, before any operation (R190); `draw k` is the `VECTOR_POWERON` of chip `k`. -/
def State.powerOn (n : Nat) (p : Params := Config.params)
    (draw : Nat → Byte := Config.vectorPowerOn) : State where
  params := p
  chips := (List.range n).map fun k => Chip.powerOn p (draw k)
  requests := []
  result := .nothing

/-- `n` chips, each of them reset once after power-on (R31, R192; R174: all chips start alike). -/
def State.resetOf (n : Nat) (p : Params := Config.params)
    (draw : Nat → Byte := Config.vectorPowerOn) : State where
  params := p
  chips := (List.range n).map fun k => Chip.afterReset p (draw k)
  requests := []
  result := .nothing

/-- The machine right after reset: the start state of spec/95_test_vectors.md ("power-on, then RESET"), the parameters at their stated defaults. notes/assumptions/2.md. -/
def State.reset : State := State.resetOf Config.nChips

end Sys2Proof.Machine
end

