-- ==== Sys2Proof/Machine/Flags.lean ====
section
/-! DEFINITION. Everything an operation reads off a state without changing it: the control-word accessors (spec/10_state.md R13), the conditions of the countdown (spec/41_countdown.md), and a chip's status and outputs (R26, spec/43_daisy_chain.md R130 to R145). -/

namespace Sys2Proof.Machine

/-- The fields of the channel's control register (R13). -/
def Channel.cw (p : Params) (c : Channel) : ControlWord := ControlWord.ofByte c.mode p.cwLayout

/-- `int_en(c)` (R13). -/
def Channel.intEn (p : Params) (c : Channel) : Bool := (c.cw p).intEn

/-- `counter(c)` (R13). -/
def Channel.counter (p : Params) (c : Channel) : Bool := (c.cw p).counter

/-- `P(c)` (R13). -/
def Channel.prescale (p : Params) (c : Channel) : Nat :=
  if (c.cw p).prescale256 then Config.prescaleLong else Config.prescaleShort

/-- `rising(c)` (R13), as the level a qualifying edge ends at (R101). -/
def Channel.rising (p : Params) (c : Channel) : Level := (c.cw p).rising

/-- `trig(c)` (R13): effective on `TRIG_CHANNELS` only. -/
def Channel.trig (p : Params) (c : Channel) : Bool :=
  (c.cw p).trigger && decide (c.index ∈ p.trigChannels)

/-- The situation of R84: a control word without the reset bit to a channel that waits for its starting edge, where the new word does not keep timer mode with an effective trigger flag. -/
def Channel.dropsTriggerWait (p : Params) (i : ChanIx) (w : ControlWord) (c : Channel) : Bool :=
  let newTimerTrig := !w.counter && w.trigger && decide (i ∈ p.trigChannels)
  !w.swReset && c.run == .waitTrig && !newTimerTrig

/-- `TICK` counts on this channel: timer mode and ARMED (R103). -/
def Channel.ticking (p : Params) (c : Channel) : Bool := !c.counter p && c.run == .armed

/-- The next `TICK` brings this channel's down-counter to 0 (R103). -/
def Channel.expiresOnTick (p : Params) (c : Channel) : Bool :=
  c.ticking p && c.psc + 1 == c.prescale p && c.down - 1 == 0

/-- The channel's input going to level `l` is a qualifying edge (R101). -/
def Channel.qualifies (p : Params) (l : Level) (c : Channel) : Bool :=
  l != c.extLevel && l == c.rising p

/-- The channel's input going to level `l` brings the down-counter to 0 (R100). -/
def Channel.expiresOnEdge (p : Params) (l : Level) (c : Channel) : Bool :=
  c.qualifies p l && c.counter p && c.run == .armed && c.down - 1 == 0

/-- The channel has a request that counts: pending and enabled (R26, R83). -/
def Channel.requesting (p : Params) (c : Channel) : Bool := c.intEn p && c.intState == .pending

/-- The channel is being serviced (R23). -/
def Channel.inService (c : Channel) : Bool := c.intState == .asserted

/-- `any_asserted(k)` (R26). -/
def Chip.anyAsserted (k : Chip) : Bool := chanIxs.any fun i => (k.chan i).inService

/-- `any_pending(k)` (R26). -/
def Chip.anyPending (p : Params) (k : Chip) : Bool := chanIxs.any fun i => (k.chan i).requesting p

/-- `local_status(k)` (R26, R130). -/
def Chip.localStatus (p : Params) (k : Chip) : ChainStatus :=
  if k.anyAsserted then .asserted else if k.anyPending p then .pending else .none

/-- `INT(k)`, the interrupt-request output (R26, R131). -/
def Chip.intOut (p : Params) (k : Chip) : Level := k.localStatus p != .none

/-- `IEO(k, iei)`, the interrupt-enable-out (R26, R133). -/
def Chip.ieo (p : Params) (k : Chip) (iei : Level) : Level := iei && k.localStatus p == .none

/-- The answer of `STATUS(iei)` (R132). -/
def Chip.statusFor (p : Params) (k : Chip) (iei : Level) : ChainStatus :=
  if iei then k.localStatus p else .none

/-- The lowest-index channel that is pending and enabled (R136). -/
def Chip.ackChannel (p : Params) (k : Chip) : Option ChanIx :=
  chanIxs.find? fun i => (k.chan i).requesting p

/-- The lowest-index channel that is asserted (R138). -/
def Chip.serviceChannel (k : Chip) : Option ChanIx := chanIxs.find? fun i => (k.chan i).inService

/-- The effective vector of channel `i` (R66): an 8-bit sum, the carry dropped. -/
def Chip.effectiveVector (k : Chip) (i : ChanIx) : Byte :=
  k.vector + BitVec.ofNat 8 (Config.vecStride * i.val)

/-- The byte `RD` returns: `down` modulo 256 (R65). -/
def Channel.readByte (c : Channel) : Byte := BitVec.ofNat 8 c.down

/-- `iei(cs, n)`: the interrupt-enable-in of member `n` of a chain (R140). -/
def chainIei (p : Params) (cs : List Chip) : Nat → Level
  | 0 => p.ieiHead
  | n + 1 => match cs[n]? with
    | some c => c.ieo p (chainIei p cs n)
    | none => chainIei p cs n

/-- The chip that decides for the chain in R141 and R142: the first whose status is not NONE, if that status is PENDING. A member is a chip with its number. -/
def chainRequester (p : Params) : List (Nat × Chip) → Option Nat
  | [] => none
  | m :: ms => match m.2.localStatus p with
    | .pending => some m.1
    | .asserted => none
    | .none => chainRequester p ms

/-- The first chip of a chain with an asserted channel: the one whose `RETI` answers true (R143). -/
def chainInService (ms : List (Nat × Chip)) : Option Nat :=
  (ms.find? fun m => m.2.anyAsserted).map Prod.fst

end Sys2Proof.Machine
end

