-- ==== Sys2Proof/Machine/Operands.lean ====
section
/-! DEFINITION. How an operation's operands reach the state: a chip by its number, a chain by its list, the addressed channel of a write (spec/20_memory.md R45, spec/43_daisy_chain.md R140). -/

namespace Sys2Proof.Machine

/-- The chip an operand names, if it is present. -/
def State.chip? (s : State) (k : Nat) : Option Chip := s.chips[k]?

/-- The members of a chain in its order, if every one is present (R140). -/
def State.members? (s : State) : List Nat → Option (List (Nat × Chip))
  | [] => some []
  | k :: ks => match s.chip? k, s.members? ks with
    | some c, some ms => some ((k, c) :: ms)
    | _, _ => none

/-- `ch[a].await_tc` of the channel a write addresses, as the preceding operation left it (R51, R61); of no matter to any other request. -/
def State.awaits (s : State) : Request → Bool
  | .wr k a _ => match s.chip? k with
    | some c => (c.chan a).awaitTc
    | none => false
  | _ => false

end Sys2Proof.Machine
end

