-- ==== Sys2Proof/Machine/Ops.lean ====
section
/-! DEFINITION. The shared operations: what one channel does (spec/40, 41, 70), what one chip does, how an operation on a chip becomes a step of the machine, the contract check of a write, and the two halves of an interrupt: acknowledge and return (spec/43_daisy_chain.md R136, R138; spec/60_exceptions.md R168, R169). -/

namespace Sys2Proof.Machine

/-- `EXPIRY` (R105, R106): reload, toggle, request if enabled and not already requesting. -/
def Channel.expiry (p : Params) (c : Channel) : Channel :=
  { c with
    down := c.tc
    zc := !c.zc
    intState := if c.intEn p && c.intState == .none then .pending else c.intState }

/-- One decrement of the down-counter, with the expiry it may bring (R100, R103, R107). -/
def Channel.decrement (p : Params) (c : Channel) : Channel :=
  if c.down - 1 = 0 then { c with down := 0 }.expiry p else { c with down := c.down - 1 }

/-- `TICK` on one channel (R103). -/
def Channel.tick (p : Params) (c : Channel) : Channel :=
  if c.ticking p then
    if c.psc + 1 = c.prescale p then { c with psc := 0 }.decrement p else { c with psc := c.psc + 1 }
  else c

/-- `TRG` on one channel (R100, R101, R102, R110). -/
def Channel.trg (p : Params) (l : Level) (c : Channel) : Channel :=
  if l = c.extLevel then c
  else
    let c' := { c with extLevel := l }
    if l = c.rising p then
      if c.run = .waitTrig then { c' with run := .armed, psc := 0 }
      else if c.counter p = true ∧ c.run = .armed then c'.decrement p
      else c'
    else c'

/-- `WR.CTRL` on one channel, where R84 does not refuse it (R81, R87). -/
def Channel.writeCtrl (p : Params) (w : ControlWord) (c : Channel) : Channel :=
  let changed := w.counter != (c.cw p).counter || w.prescale256 != (c.cw p).prescale256
  let c' := { c with
    psc := if changed then 0 else c.psc
    mode := w.toByte p.cwLayout
    awaitTc := w.follows }
  if w.swReset then { c' with run := .stopped, intState := .none, psc := 0 } else c'

/-- `WR.TC` on one channel (R82). -/
def Channel.writeTc (p : Params) (v : Byte) (c : Channel) : Channel :=
  { c with
    tc := tcOfByte v
    awaitTc := false
    down := tcOfByte v
    psc := 0
    run := if c.counter p then .armed else if c.trig p then .waitTrig else .armed }

/-- `RESET` on one channel (R192). -/
def Channel.hwReset (c : Channel) : Channel :=
  { c with
    mode := 0x03#8
    awaitTc := false
    psc := 0
    run := .stopped
    intState := .none
    zc := false }

/-- Change one channel of a chip. -/
def Chip.updCh (i : ChanIx) (f : Channel → Channel) (k : Chip) : Chip :=
  { k with ch := k.ch.set i (f (k.chan i)) }

/-- Change each of the four channels ("for i in 0, 1, 2, 3", R103, R192). -/
def Chip.mapCh (f : Channel → Channel) (k : Chip) : Chip :=
  { k with ch := #v[f (k.chan 0), f (k.chan 1), f (k.chan 2), f (k.chan 3)] }

/-- `RESET` on one chip (R192): `vector` is retained. -/
def Chip.hwReset (k : Chip) : Chip where
  inited := true
  vector := k.vector
  ch := (k.mapCh Channel.hwReset).ch

/-- The chips with channel 0 of chip 0 not awaiting a constant (for `State.withFetchWord`). -/
def idleSlot0 : List Chip → List Chip
  | [] => []
  | c :: cs => c.updCh 0 (fun x => { x with awaitTc := false }) :: cs

/-- What an operation on one chip answers: the chip after it and the value returned, or a stop. -/
abbrev Effect := Host.Outcome (Chip × Result) Fault Refusal

/-- The machine with chip `k` replaced and the operation's value returned. -/
def State.put (k : Nat) (c : Chip) (r : Result) (s : State) : State :=
  { s with chips := s.chips.set k c, result := r }

/-- The machine with nothing changed but the value returned. -/
def State.answer (r : Result) (s : State) : State := { s with result := r }

/-- An operation on chip `k` as a step of the machine. -/
def onChip (k : Nat) (f : Chip → Effect) (s : State) : Host.Outcome State Fault Refusal :=
  match s.chip? k with
  | none => .refused .noSuchChip
  | some c => match f c with
    | .next p => .next (s.put k p.1 p.2)
    | .fault e => .fault e
    | .refused e => .refused e

/-- An operation on a whole chain: every member must be present. -/
def onChain (cs : List Nat)
    (f : List (Nat × Chip) → State → Host.Outcome State Fault Refusal) (s : State) :
    Host.Outcome State Fault Refusal :=
  match s.members? cs with
  | none => .refused .noSuchChip
  | some ms => f ms s

/-- The test every `WR` begins with (R120, R161). -/
def hostWrite (f : Chip → Effect) (k : Chip) : Effect :=
  if k.inited then f k else .fault .writeBeforeInit

/-- A chip operation that always completes. -/
def completes (f : Chip → Chip) (r : Chip → Result) (k : Chip) : Effect := .next (f k, r k)

/-- Interrupt entry, from the device's side (R136, R168). -/
def Chip.acknowledge (p : Params) (k : Chip) : Effect :=
  if k.localStatus p = .pending then
    match k.ackChannel p with
    | some i => .next (k.updCh i fun c => { c with intState := .asserted }, .byte (k.effectiveVector i))
    | none => .fault .ackNotPending
  else .fault .ackNotPending

/-- Return from interrupt, from the device's side (R138, R169). -/
def Chip.returnFromInterrupt (k : Chip) : Effect :=
  match k.serviceChannel with
  | some i => .next (k.updCh i fun c => { c with intState := .none }, .truth true)
  | none => .next (k, .truth false)

end Sys2Proof.Machine
end

