-- ==== Sys2Proof/Machine/ChannelAccess.lean ====
section
/-! DEFINITION. The host's accesses to a channel (spec/40_channel_write_read.md): `WR.CTRL`, `WR.TC`, `WR.IGN`, `RD`. -/

namespace Sys2Proof.Machine

/-- `WR.CTRL` (R81), refused in the situation of R84. -/
def execWrCtrl (k : Nat) (i : ChanIx) (w : ControlWord) (s : State) :
    Host.Outcome State Fault Refusal :=
  onChip k (hostWrite fun c =>
    if (c.chan i).dropsTriggerWait s.params i w then .refused .ctrlDropsTriggerWait
    else .next (c.updCh i (Channel.writeCtrl s.params w), .nothing)) s

/-- `WR.TC` (R82). -/
def execWrTc (k : Nat) (i : ChanIx) (v : Byte) (s : State) :
    Host.Outcome State Fault Refusal :=
  onChip k (hostWrite (completes (Chip.updCh i (Channel.writeTc s.params v)) fun _ => .nothing)) s

/-- `WR.IGN` (R85): the byte is dropped. -/
def execWrIgn (k : Nat) (_i : ChanIx) (_x : BitVec 7) (s : State) :
    Host.Outcome State Fault Refusal :=
  onChip k (hostWrite (completes (fun c => c) fun _ => .nothing)) s

/-- `RD` (R86, R123): a pure observation, allowed before the first `RESET`. -/
def execRd (k : Nat) (i : ChanIx) (s : State) : Host.Outcome State Fault Refusal :=
  onChip k (completes (fun c => c) fun c => .byte (c.chan i).readByte) s

end Sys2Proof.Machine
end

