-- ==== Sys2Proof/Machine/Controller.lean ====
section
/-! DEFINITION. The chip's own register and its reset: `WR.VEC` (spec/42_controller.md), `RESET` (spec/70_reset_and_hazards.md). -/

namespace Sys2Proof.Machine

/-- `WR.VEC` (R121): the byte is stored as written. -/
def execWrVec (k : Nat) (v : BitVec 7) (s : State) : Host.Outcome State Fault Refusal :=
  onChip k (hostWrite (completes (fun c => { c with vector := evenByte v }) fun _ => .nothing)) s

/-- `RESET` (R192). -/
def execReset (k : Nat) (s : State) : Host.Outcome State Fault Refusal :=
  onChip k (completes Chip.hwReset fun _ => .nothing) s

end Sys2Proof.Machine
end

