-- ==== Sys2Proof/Machine/Countdown.lean ====
section
/-! DEFINITION. The two decrement drivers (spec/41_countdown.md): `TRG`, `TICK`. -/

namespace Sys2Proof.Machine

/-- `TRG` (R100). -/
def execTrg (k : Nat) (i : ChanIx) (l : Level) (s : State) : Host.Outcome State Fault Refusal :=
  onChip k (completes (Chip.updCh i (Channel.trg s.params l)) fun _ => .nothing) s

/-- `TICK` (R103). -/
def execTick (k : Nat) (s : State) : Host.Outcome State Fault Refusal :=
  onChip k (completes (Chip.mapCh (Channel.tick s.params)) fun _ => .nothing) s

end Sys2Proof.Machine
end

