-- ==== Sys2Proof/Machine/DaisyChain.lean ====
section
/-! DEFINITION. The interrupt operations of one chip and of a chain (spec/43_daisy_chain.md): `STATUS`, `ACK`, `RETI`, `CHAIN.IRQ`, `CHAIN.ACK`, `CHAIN.RETI`. -/

namespace Sys2Proof.Machine

/-- `STATUS` (R132). -/
def execStatus (k : Nat) (iei : Level) (s : State) : Host.Outcome State Fault Refusal :=
  onChip k (completes (fun c => c) fun c => .status (c.statusFor s.params iei)) s

/-- `ACK` (R136). -/
def execAck (k : Nat) (s : State) : Host.Outcome State Fault Refusal :=
  onChip k (Chip.acknowledge s.params) s

/-- `RETI` (R138). -/
def execReti (k : Nat) (s : State) : Host.Outcome State Fault Refusal :=
  onChip k Chip.returnFromInterrupt s

/-- `CHAIN.IRQ` (R141). -/
def execChainIrq (cs : List Nat) (s : State) : Host.Outcome State Fault Refusal :=
  onChain cs (fun ms s => .next (s.answer (.truth (chainRequester s.params ms).isSome))) s

/-- `CHAIN.ACK` (R142): `ACK` on the requester. -/
def execChainAck (cs : List Nat) (s : State) : Host.Outcome State Fault Refusal :=
  onChain cs (fun ms s => match chainRequester s.params ms with
    | none => .fault .chainAckNoRequest
    | some k => onChip k (Chip.acknowledge s.params) s) s

/-- `CHAIN.RETI` (R143): `RETI` on the first chip that handles it; the chips before it are left as they are (R138). -/
def execChainReti (cs : List Nat) (s : State) : Host.Outcome State Fault Refusal :=
  onChain cs (fun ms s => match chainInService ms with
    | none => .next (s.answer (.truth false))
    | some k => onChip k Chip.returnFromInterrupt s) s

end Sys2Proof.Machine
end

