-- ==== Sys2Proof/Machine/Dispatch.lean ====
section
/-! DEFINITION. One arm for each operation of spec/opcode_table.json, each a call of its meaning. -/

namespace Sys2Proof.Machine

def exec (i : Instr) (s : State) : Host.Outcome State Fault Refusal :=
  match i with
  | .wrVec k v => Sys2Proof.Machine.execWrVec k v s
  | .wrCtrl k a w => Sys2Proof.Machine.execWrCtrl k a w s
  | .wrTc k a v => Sys2Proof.Machine.execWrTc k a v s
  | .wrIgn k a x => Sys2Proof.Machine.execWrIgn k a x s
  | .rd k a => Sys2Proof.Machine.execRd k a s
  | .trg k a l => Sys2Proof.Machine.execTrg k a l s
  | .tick k => Sys2Proof.Machine.execTick k s
  | .reset k => Sys2Proof.Machine.execReset k s
  | .status k iei => Sys2Proof.Machine.execStatus k iei s
  | .ack k => Sys2Proof.Machine.execAck k s
  | .reti k => Sys2Proof.Machine.execReti k s
  | .chainIrq cs => Sys2Proof.Machine.execChainIrq cs s
  | .chainAck cs => Sys2Proof.Machine.execChainAck cs s
  | .chainReti cs => Sys2Proof.Machine.execChainReti cs s

end Sys2Proof.Machine
end

