-- ==== Sys2Proof/Machine/Step.lean ====
section
/-! DEFINITION. One step of the machine: the next operation of the environment, decoded in the state it meets (spec/00_scope.md R5, R6; spec/20_memory.md R48, R51). -/

namespace Sys2Proof.Machine

/-- The next request is taken from the environment's list, decoded by the state and its parameters, and executed. Where the environment invokes nothing, nothing happens (notes/assumptions/1.md, DESIGN CHOICE, safe). -/
def step (s : State) : Host.Outcome State Fault Refusal :=
  match s.requests with
  | [] => .next s
  | r :: rest => exec (decode (s.awaits r) r s.params) { s with requests := rest }

/-- The host writes the table's byte `w` to slot 0 of chip 0 as the very next operation, channel 0 not awaiting a constant (so that, under the default parameters, the byte is decoded as `decodeTableWord` decodes it). A table item that is not one byte is no write. notes/assumptions/10.md. -/
def State.withFetchWord (s : State) (nbits w : Nat) : State :=
  if nbits = 8 then
    { s with
      chips := idleSlot0 s.chips
      requests := .wr 0 0 (BitVec.ofNat 8 w) :: s.requests }
  else s

end Sys2Proof.Machine
end

