-- ==== Sys2Proof/Safety.lean ====
section
/-! DEFINITION. What claims are stated in: the invariants of spec/10_state.md R27, what it means to touch one chip or one channel only, and runs of several operations. -/

namespace Sys2Proof.Machine

/-- R27 for one channel, clauses 1 and 2 (`1 <= down <= tc <= 256`), 5 (what `WAIT_TRIG` implies), 6 (`psc < P` in timer mode), 7 (`mode[0] = 1`). -/
abbrev Channel.Inv (p : Params) (c : Channel) : Prop :=
  (1 ≤ c.tc ∧ c.tc ≤ 256) ∧ (1 ≤ c.down ∧ c.down ≤ c.tc) ∧
  (c.run = .waitTrig → c.counter p = false ∧ c.trig p = true) ∧
  (c.counter p = false → c.psc < c.prescale p) ∧
  c.mode[0] = true

/-- The channel is as at power-on, but for the recorded input level (R27 clause 8). -/
abbrev Channel.FreshButLevel (p : Params) (i : ChanIx) (c : Channel) : Prop :=
  c = { Channel.powerOn p i with extLevel := c.extLevel }

/-- R27 for one chip: every channel's invariant, `ch[i].index = i` (R12), at most one asserted channel (clause 3), and power-on channels before the first `RESET` (clause 8). -/
abbrev Chip.Inv (p : Params) (k : Chip) : Prop :=
  (∀ i : ChanIx, (k.chan i).Inv p ∧ (k.chan i).index = i) ∧
  (∀ i j : ChanIx, (k.chan i).intState = .asserted → (k.chan j).intState = .asserted → i = j) ∧
  (k.inited = false → ∀ i : ChanIx, (k.chan i).FreshButLevel p i)

/-- The parameters are legal (notes/assumptions/17.md), and every chip meets R27. -/
abbrev State.Inv (s : State) : Prop := s.params.wf = true ∧ ∀ c ∈ s.chips, c.Inv s.params

/-- From `s` to `t` no chip but `k` changed, none came or went, and the parameters and what the environment will invoke are the same. -/
abbrev OnlyChip (k : Nat) (s t : State) : Prop :=
  t.params = s.params ∧ t.requests = s.requests ∧ t.chips.length = s.chips.length ∧
  ∀ j : Nat, j ≠ k → t.chips[j]? = s.chips[j]?

/-- From chip `c` to chip `d` nothing but channel `i` changed. -/
abbrev OnlyChannel (i : ChanIx) (c d : Chip) : Prop :=
  d.inited = c.inited ∧ d.vector = c.vector ∧ ∀ j : ChanIx, j ≠ i → d.chan j = c.chan j

/-- The operation `i` completes on chip `k` of `s`: it leaves chip `k` as `d`, touches no other chip and returns `r`. -/
abbrev ChipCompletes (i : Instr) (k : Nat) (s : State) (d : Chip) (r : Result) : Prop :=
  ∃ t : State, exec i s = .next t ∧ t.chips[k]? = some d ∧ OnlyChip k s t ∧ t.result = r

/-- The chips an operation's operands name. -/
def chipOperands : Instr → List Nat
  | .wrVec k _ => [k]
  | .wrCtrl k _ _ => [k]
  | .wrTc k _ _ => [k]
  | .wrIgn k _ _ => [k]
  | .rd k _ => [k]
  | .trg k _ _ => [k]
  | .tick k => [k]
  | .reset k => [k]
  | .status k _ => [k]
  | .ack k => [k]
  | .reti k => [k]
  | .chainIrq cs => cs
  | .chainAck cs => cs
  | .chainReti cs => cs

/-- The operation is one of the four decodings of `WR` on chip `k` (R5, R120). -/
def IsWrite (k : Nat) : Instr → Prop
  | .wrVec j _ => j = k
  | .wrCtrl j _ _ => j = k
  | .wrTc j _ _ => j = k
  | .wrIgn j _ _ => j = k
  | _ => False

/-- `ms` are the chips that the list `cs` names, in its order. -/
abbrev ChainOf (s : State) (cs : List Nat) (ms : List Chip) : Prop :=
  cs.map (fun k => s.chips[k]?) = ms.map some

/-- The operations `is`, one after the other, up to the first stop. -/
def runOps : List Instr → State → Host.Outcome State Fault Refusal
  | [], s => .next s
  | i :: is, s => match exec i s with
    | .next t => runOps is t
    | .fault e => .fault e
    | .refused e => .refused e

/-- `n` pulses on channel `i` of chip `k`, each a change of its input to level `l` and one back (R70 `PULSE`, for either polarity). -/
def pulses (k : Nat) (i : ChanIx) (l : Level) : Nat → List Instr
  | 0 => []
  | n + 1 => .trg k i l :: .trg k i (!l) :: pulses k i l n

end Sys2Proof.Machine
end

