-- ==== Sys2Proof/Certificates/Slice0/Obligations.lean ====
section
/-! DEFINITION. The statements for the provers. Each says which rule of spec/ it formalises; OBLIGATIONS.json lists them. A statement holds for the machine's parameters `p` (R7) whatever they are, unless it says otherwise; the fields of a control word are read by the accessors of R13 (ModeAccessors and ControlWordLayout say which bits they are at the default layout). -/

open Sys2Proof Sys2Proof.Machine

/-! ## Power-on and reset -/

/-- R190: the state before any operation, and what it shows to the outside, for the parameters `p` and any draws `draw` of `VECTOR_POWERON` (notes/assumptions/4.md); the last clause of `RD` is the value at the defaults. -/
def Obligations.PowerOnState : Prop :=
  ∀ (n : Nat) (p : Params) (draw : Nat → Byte) (k : Nat), k < n →
    ∃ c : Chip, (State.powerOn n p draw).chips[k]? = some c ∧
      c.inited = false ∧ c.vector = draw k ∧
      (∀ i : ChanIx, c.chan i =
        { index := i, mode := 0x03#8, awaitTc := false, tc := p.countPowerOn,
          down := p.countPowerOn, psc := 0, run := .stopped, extLevel := p.extLevelPowerOn,
          zc := p.zcPowerOn, intState := .none }) ∧
      c.intOut p = false ∧ (∀ iei : Level, c.ieo p iei = iei) ∧
      (∀ iei : Level, ChipCompletes (.status k iei) k (State.powerOn n p draw) c (.status .none)) ∧
      (∀ i : ChanIx, ∃ b : Byte, ChipCompletes (.rd k i) k (State.powerOn n p draw) c (.byte b) ∧
        b.toNat = p.countPowerOn % 256 ∧ (p = Config.params → b = 0x00#8))

/-- `State.reset` is power-on followed by one `RESET` of every chip that is present, with no operation outstanding, the parameters at their defaults; the same for other parameters and draws. Rests on the model's choice of start (notes/assumptions/2.md) and of the number of chips (3.md). -/
def Obligations.ResetStateIsPowerOnThenReset : Prop :=
  (∀ (p : Params) (draw : Nat → Byte), runOps ((List.range Config.nChips).map Instr.reset)
    (State.powerOn Config.nChips p draw) = .next (State.resetOf Config.nChips p draw)) ∧
  State.reset = State.resetOf Config.nChips Config.params Config.vectorPowerOn ∧
  State.reset.chips.length = 3 ∧ State.reset.requests = []

/-- R7: the stated defaults of the parameters, and that a machine starts with them unless it is given others (notes/assumptions/17.md; the layout: 6.md). -/
def Obligations.ParameterDefaults : Prop :=
  Config.params.cwLayout =
    { intEn := ⟨7, true⟩, counter := ⟨6, true⟩, prescale256 := ⟨5, true⟩, rising := ⟨4, true⟩,
      trigger := ⟨3, true⟩, follows := ⟨2, true⟩, swReset := ⟨1, true⟩ } ∧
  Config.params.trigChannels = [0] ∧ Config.params.extLevelPowerOn = false ∧
  Config.params.zcPowerOn = false ∧ Config.params.countPowerOn = 256 ∧
  Config.params.ieiHead = true ∧ Config.params.wf = true ∧
  State.reset.params = Config.params ∧ ∀ n : Nat, (State.powerOn n).params = Config.params

/-- R7: the parameters are parameters: no step changes them (notes/assumptions/17.md). -/
def Obligations.ParametersAreFixed : Prop :=
  ∀ s t : State, step s = .next t → t.params = s.params

/-- R192: `RESET` completes in every state of the chip. -/
def Obligations.ResetEffect : Prop :=
  ∀ (s : State) (k : Nat) (c : Chip), s.chips[k]? = some c →
    ∃ d : Chip, ChipCompletes (.reset k) k s d .nothing ∧
      d.inited = true ∧ d.vector = c.vector ∧
      (∀ i : ChanIx, d.chan i =
        { c.chan i with
          mode := 0x03#8, awaitTc := false, psc := 0, run := .stopped
          intState := .none, zc := false }) ∧
      d.localStatus s.params = .none ∧ d.intOut s.params = false ∧
      ∀ iei : Level, d.ieo s.params iei = iei

/-! ## Host accesses -/

/-- R81: a control word with the fields `w` on a chip that has been reset (R161). First clause: it completes where R84 does not refuse it, and `mode` is then the byte that was written. Second clause: the refusal. -/
def Obligations.ControlWordEffect : Prop :=
  ∀ (s : State) (p : Params) (k : Nat) (c : Chip) (i : ChanIx) (w : ControlWord),
    s.params = p → s.chips[k]? = some c → c.inited = true →
    (¬ (w.swReset = false ∧ (c.chan i).run = .waitTrig ∧
        ¬ (w.counter = false ∧ w.trigger = true ∧ i ∈ p.trigChannels)) →
      ∃ d : Chip, ChipCompletes (.wrCtrl k i w) k s d .nothing ∧ OnlyChannel i c d ∧
        d.chan i = { c.chan i with
          mode := w.toByte p.cwLayout
          awaitTc := w.follows
          psc := if w.swReset = true ∨ w.counter ≠ (c.chan i).counter p ∨
                    w.prescale256 ≠ ((c.chan i).cw p).prescale256 then 0 else (c.chan i).psc
          run := if w.swReset = true then .stopped else (c.chan i).run
          intState := if w.swReset = true then .none else (c.chan i).intState }) ∧
    (w.swReset = false → (c.chan i).run = .waitTrig →
      ¬ (w.counter = false ∧ w.trigger = true ∧ i ∈ p.trigChannels) →
      exec (.wrCtrl k i w) s = .refused .ctrlDropsTriggerWait)

/-- R84: a control word is refused exactly there (on a chip that is present and reset), and a waiting channel that takes a word without the reset bit keeps waiting, under the new word. -/
def Obligations.ControlWordRefusedExactly : Prop :=
  ∀ (s : State) (p : Params) (k : Nat) (c : Chip) (i : ChanIx) (w : ControlWord),
    s.params = p → s.chips[k]? = some c → c.inited = true →
    (exec (.wrCtrl k i w) s = .refused .ctrlDropsTriggerWait ↔
      w.swReset = false ∧ (c.chan i).run = .waitTrig ∧
        ¬ (w.counter = false ∧ w.trigger = true ∧ i ∈ p.trigChannels)) ∧
    ((c.chan i).run = .waitTrig → w.swReset = false → w.counter = false → w.trigger = true →
      i ∈ p.trigChannels →
      ∃ d : Chip, ChipCompletes (.wrCtrl k i w) k s d .nothing ∧
        (d.chan i).run = .waitTrig ∧ (d.chan i).mode = w.toByte p.cwLayout ∧
        (p.cwLayout.wf = true → (d.chan i).rising p = w.rising))

/-- R82: a time constant stores, loads and starts, in every state of a chip that has been reset. The last premise is R12 (`ch[i].index = i` always), a part of the invariant `Chip.Inv` that StepKeepsInvariant states. -/
def Obligations.TimeConstantEffect : Prop :=
  ∀ (s : State) (k : Nat) (c : Chip) (i : ChanIx) (v : Byte),
    s.chips[k]? = some c → c.inited = true → (c.chan i).index = i →
    ∃ d : Chip, ChipCompletes (.wrTc k i v) k s d .nothing ∧ OnlyChannel i c d ∧
      d.chan i = { c.chan i with
        tc := if v = 0#8 then 256 else v.toNat
        awaitTc := false
        down := if v = 0#8 then 256 else v.toNat
        psc := 0
        run := if (c.chan i).counter s.params = false ∧
                  ((c.chan i).cw s.params).trigger = true ∧ i ∈ s.params.trigChannels
               then .waitTrig else .armed }

/-- R85: a byte with bit 0 = 0 to channel 1, 2 or 3 that awaits nothing is dropped. -/
def Obligations.IgnoredWriteEffect : Prop :=
  ∀ (s : State) (k : Nat) (c : Chip) (i : ChanIx) (x : BitVec 7),
    s.chips[k]? = some c → c.inited = true → i ≠ 0 →
    ChipCompletes (.wrIgn k i x) k s c .nothing

/-- R121: the byte `b`, whose bits 7..1 are `v` and whose bit 0 is 0, is stored as written; no channel changes. -/
def Obligations.VectorWriteEffect : Prop :=
  ∀ (s : State) (k : Nat) (c : Chip) (v : BitVec 7) (b : Byte),
    s.chips[k]? = some c → c.inited = true →
    b.toNat = 2 * v.toNat →
    ∃ d : Chip, ChipCompletes (.wrVec k v) k s d .nothing ∧ d = { c with vector := b }

/-- R86: `RD` returns `down` modulo 256 and changes nothing, before the first `RESET` too. -/
def Obligations.ReadEffect : Prop :=
  ∀ (s : State) (k : Nat) (c : Chip) (i : ChanIx), s.chips[k]? = some c →
    ∃ b : Byte, ChipCompletes (.rd k i) k s c (.byte b) ∧ b.toNat = (c.chan i).down % 256

/-- R44: the pure observations, and a repeated read. -/
def Obligations.ObservationsChangeNothing : Prop :=
  ∀ (s t : State) (i : Instr),
    (∃ k a, i = .rd k a) ∨ (∃ k iei, i = .status k iei) ∨ (∃ cs, i = .chainIrq cs) →
    exec i s = .next t →
      t.chips = s.chips ∧ t.requests = s.requests ∧
      ∃ u : State, exec i t = .next u ∧ u.result = t.result

/-! ## Countdown -/

/-- R100, R101: the external input of a channel observed at level `l`. The clauses are the branches of R100; the decrement is stated for `down ≥ 1`, where R107 applies it. -/
def Obligations.InputLevelEffect : Prop :=
  ∀ (s : State) (p : Params) (k : Nat) (c : Chip) (i : ChanIx) (l : Level),
    s.params = p → s.chips[k]? = some c →
    ∃ d : Chip, ChipCompletes (.trg k i l) k s d .nothing ∧ OnlyChannel i c d ∧
      (l = (c.chan i).extLevel → d = c) ∧
      (l ≠ (c.chan i).extLevel → l ≠ (c.chan i).rising p →
        d.chan i = { c.chan i with extLevel := l }) ∧
      (l ≠ (c.chan i).extLevel → l = (c.chan i).rising p → (c.chan i).run = .waitTrig →
        d.chan i = { c.chan i with extLevel := l, run := .armed, psc := 0 }) ∧
      (l ≠ (c.chan i).extLevel → l = (c.chan i).rising p → (c.chan i).run = .armed →
        (c.chan i).counter p = true → 2 ≤ (c.chan i).down →
        d.chan i = { c.chan i with extLevel := l, down := (c.chan i).down - 1 }) ∧
      (l ≠ (c.chan i).extLevel → l = (c.chan i).rising p → (c.chan i).run = .armed →
        (c.chan i).counter p = true → (c.chan i).down = 1 →
        d.chan i = { c.chan i with
          extLevel := l
          down := (c.chan i).tc
          zc := !(c.chan i).zc
          intState := if (c.chan i).intEn p = true ∧ (c.chan i).intState = .none
                      then .pending else (c.chan i).intState }) ∧
      (l ≠ (c.chan i).extLevel → l = (c.chan i).rising p → (c.chan i).run ≠ .waitTrig →
        ¬ ((c.chan i).run = .armed ∧ (c.chan i).counter p = true) →
        d.chan i = { c.chan i with extLevel := l })

/-- R102: on a STOPPED channel an edge changes nothing but the recorded level (nor does a tick change anything), in both modes; `WR.TC` arms a stopped counter-mode channel, and its count then proceeds by edges. -/
def Obligations.StoppedChannelDoesNotCount : Prop :=
  ∀ (s : State) (k : Nat) (c : Chip) (i : ChanIx) (l : Level),
    s.chips[k]? = some c → (c.chan i).run = .stopped →
    (∃ d : Chip, ChipCompletes (.trg k i l) k s d .nothing ∧
      d.chan i = { c.chan i with extLevel := l }) ∧
    (∃ d : Chip, ChipCompletes (.tick k) k s d .nothing ∧ d.chan i = c.chan i) ∧
    (c.inited = true → (c.chan i).counter s.params = true → ∀ v : Byte,
      ∃ (t : State) (d : Chip), exec (.wrTc k i v) s = .next t ∧ t.chips[k]? = some d ∧
        (d.chan i).run = .armed ∧
        (l ≠ (c.chan i).extLevel → l = (c.chan i).rising s.params → 2 ≤ (d.chan i).down →
          ∃ e : Chip, ChipCompletes (.trg k i l) k t e .nothing ∧
            (e.chan i).down = (d.chan i).down - 1))

/-- R103: one master-clock period, on each channel of the chip. -/
def Obligations.TickEffect : Prop :=
  ∀ (s : State) (p : Params) (k : Nat) (c : Chip), s.params = p → s.chips[k]? = some c →
    ∃ d : Chip, ChipCompletes (.tick k) k s d .nothing ∧
      d.inited = c.inited ∧ d.vector = c.vector ∧
      ∀ (i : ChanIx) (P : Nat),
        P = (if ((c.chan i).cw p).prescale256 = true then 256 else 16) →
        (¬ ((c.chan i).counter p = false ∧ (c.chan i).run = .armed) → d.chan i = c.chan i) ∧
        ((c.chan i).counter p = false → (c.chan i).run = .armed → (c.chan i).psc + 1 ≠ P →
          d.chan i = { c.chan i with psc := (c.chan i).psc + 1 }) ∧
        ((c.chan i).counter p = false → (c.chan i).run = .armed → (c.chan i).psc + 1 = P →
          2 ≤ (c.chan i).down →
          d.chan i = { c.chan i with psc := 0, down := (c.chan i).down - 1 }) ∧
        ((c.chan i).counter p = false → (c.chan i).run = .armed → (c.chan i).psc + 1 = P →
          (c.chan i).down = 1 →
          d.chan i = { c.chan i with
            psc := 0
            down := (c.chan i).tc
            zc := !(c.chan i).zc
            intState := if (c.chan i).intEn p = true ∧ (c.chan i).intState = .none
                        then .pending else (c.chan i).intState })

/-- R105, and of R106 that a request is raised from `none` only: an expiry reloads, toggles and stays armed, whatever the interrupt state; one while a request is pending or in service, or with the enable clear, leaves the interrupt state alone. Both drivers. -/
def Obligations.ExpiryRequestsAtMostOnce : Prop :=
  ∀ (s : State) (k : Nat) (c : Chip) (i : ChanIx) (o : Instr),
    s.chips[k]? = some c →
    (o = .tick k ∧ (c.chan i).expiresOnTick s.params = true) ∨
      (∃ l : Level, o = .trg k i l ∧ (c.chan i).expiresOnEdge s.params l = true) →
    ∃ d : Chip, ChipCompletes o k s d .nothing ∧
      (d.chan i).down = (c.chan i).tc ∧ (d.chan i).zc = !(c.chan i).zc ∧ (d.chan i).run = .armed ∧
      ((d.chan i).intState = .pending ↔
        (c.chan i).intState = .pending ∨
          ((c.chan i).intState = .none ∧ (c.chan i).intEn s.params = true)) ∧
      ((d.chan i).intState = .asserted ↔ (c.chan i).intState = .asserted)

/-- R104: from a timer-mode channel that has just started, `t` ticks. `P` is its prescaler, `T` its constant. -/
def Obligations.TimerLaw : Prop :=
  ∀ (s : State) (p : Params) (k : Nat) (c : Chip) (i : ChanIx) (P T t : Nat),
    s.params = p → s.chips[k]? = some c →
    (c.chan i).counter p = false → (c.chan i).run = .armed → (c.chan i).psc = 0 →
    (c.chan i).tc = T → (c.chan i).down = T → 1 ≤ T →
    P = (if ((c.chan i).cw p).prescale256 = true then 256 else 16) →
    ∃ (u : State) (d : Chip), runOps (List.replicate t (.tick k)) s = .next u ∧
      u.chips[k]? = some d ∧
      (d.chan i).down = T - (t % (P * T)) / P ∧ (d.chan i).psc = t % P ∧
      (d.chan i).tc = T ∧ (d.chan i).run = .armed ∧
      ((d.chan i).expiresOnTick p = true ↔ (t + 1) % (P * T) = 0) ∧
      ((d.chan i).zc = if (t / (P * T)) % 2 = 0 then (c.chan i).zc else !(c.chan i).zc)

/-- R108: `N` qualifying edges on a counter-mode channel that has just been armed with constant `T`, its input resting at the other level. -/
def Obligations.CounterLaw : Prop :=
  ∀ (s : State) (p : Params) (k : Nat) (c : Chip) (i : ChanIx) (T N : Nat),
    s.params = p → s.chips[k]? = some c →
    (c.chan i).counter p = true → (c.chan i).run = .armed →
    (c.chan i).tc = T → (c.chan i).down = T → 1 ≤ T →
    (c.chan i).extLevel = !(c.chan i).rising p →
    ∃ (u : State) (d : Chip),
      runOps (pulses k i ((c.chan i).rising p) N) s = .next u ∧ u.chips[k]? = some d ∧
      (d.chan i).down = T - N % T ∧ (d.chan i).tc = T ∧ (d.chan i).run = .armed ∧
      (d.chan i).extLevel = (c.chan i).extLevel ∧
      ((d.chan i).zc = if (N / T) % 2 = 0 then (c.chan i).zc else !(c.chan i).zc)

/-- R110: what happens to a channel that waits for its starting edge, and that nothing but `WR.TC` makes a channel wait. -/
def Obligations.StartOnTrigger : Prop :=
  (∀ (s : State) (k : Nat) (c : Chip) (i : ChanIx),
    s.chips[k]? = some c → (c.chan i).run = .waitTrig →
    (∃ d : Chip, ChipCompletes (.tick k) k s d .nothing ∧ d.chan i = c.chan i) ∧
    ((c.chan i).extLevel = !(c.chan i).rising s.params →
      ∃ d : Chip, ChipCompletes (.trg k i ((c.chan i).rising s.params)) k s d .nothing ∧
        (d.chan i).run = .armed ∧ (d.chan i).psc = 0 ∧ (d.chan i).down = (c.chan i).down ∧
        (d.chan i).zc = (c.chan i).zc ∧ (d.chan i).intState = (c.chan i).intState)) ∧
  (∀ (s t : State) (o : Instr) (k : Nat) (i : ChanIx) (c d : Chip),
    exec o s = .next t → s.chips[k]? = some c → t.chips[k]? = some d →
    (c.chan i).run ≠ .waitTrig → (d.chan i).run = .waitTrig → ∃ v : Byte, o = .wrTc k i v)

/-! ## Status, acknowledge, return -/

/-- R130: the status of one chip by itself. -/
def Obligations.LocalStatus : Prop :=
  ∀ (p : Params) (k : Chip),
    (k.localStatus p = .asserted ↔ ∃ i : ChanIx, (k.chan i).intState = .asserted) ∧
    (k.localStatus p = .pending ↔
      (¬ ∃ i : ChanIx, (k.chan i).intState = .asserted) ∧
      ∃ i : ChanIx, (k.chan i).intEn p = true ∧ (k.chan i).intState = .pending) ∧
    (k.localStatus p = .none ↔
      (¬ ∃ i : ChanIx, (k.chan i).intState = .asserted) ∧
      ¬ ∃ i : ChanIx, (k.chan i).intEn p = true ∧ (k.chan i).intState = .pending)

/-- R26, R131, R133: the two outputs of a chip. -/
def Obligations.ChipOutputs : Prop :=
  ∀ (p : Params) (k : Chip) (iei : Level),
    (k.intOut p = true ↔ k.localStatus p ≠ .none) ∧
    (k.ieo p iei = true ↔ iei = true ∧ k.localStatus p = .none)

/-- R132: the chain status query of one chip. -/
def Obligations.StatusEffect : Prop :=
  ∀ (s : State) (k : Nat) (c : Chip), s.chips[k]? = some c →
    ChipCompletes (.status k false) k s c (.status .none) ∧
    ChipCompletes (.status k true) k s c (.status (c.localStatus s.params))

/-- R136: `ACK` takes the lowest-index channel that is pending and enabled; where the status is not PENDING it faults. -/
def Obligations.AcknowledgeEffect : Prop :=
  ∀ (s : State) (p : Params) (k : Nat) (c : Chip), s.params = p → s.chips[k]? = some c →
    (c.localStatus p = .pending →
      ∃ (i : ChanIx) (d : Chip),
        (c.chan i).intEn p = true ∧ (c.chan i).intState = .pending ∧
        (∀ j : ChanIx, (c.chan j).intEn p = true → (c.chan j).intState = .pending → i ≤ j) ∧
        ChipCompletes (.ack k) k s d (.byte (BitVec.ofNat 8 (c.vector.toNat + 2 * i.val))) ∧
        OnlyChannel i c d ∧ d.chan i = { c.chan i with intState := .asserted } ∧
        d.localStatus p = .asserted ∧ d.intOut p = true) ∧
    (c.localStatus p ≠ .pending → exec (.ack k) s = .fault .ackNotPending)

/-- R138: `RETI` clears the lowest-index asserted channel, or changes nothing. -/
def Obligations.ReturnEffect : Prop :=
  ∀ (s : State) (k : Nat) (c : Chip), s.chips[k]? = some c →
    ((∀ i : ChanIx, (c.chan i).intState ≠ .asserted) →
      ChipCompletes (.reti k) k s c (.truth false)) ∧
    (∀ i : ChanIx, (c.chan i).intState = .asserted →
      (∀ j : ChanIx, (c.chan j).intState = .asserted → i ≤ j) →
      ∃ d : Chip, ChipCompletes (.reti k) k s d (.truth true) ∧ OnlyChannel i c d ∧
        d.chan i = { c.chan i with intState := .none })

/-- R83: clearing the enable hides a pending request and keeps it; setting it again shows it. `w` has the enable and the reset bit clear, the second word is `w` with the enable set. The layout is one that R62 allows. -/
def Obligations.DisablingIsNotClearing : Prop :=
  ∀ (s : State) (p : Params) (k : Nat) (c : Chip) (i : ChanIx) (w : ControlWord),
    s.params = p → p.cwLayout.wf = true →
    s.chips[k]? = some c → c.inited = true → (c.chan i).run ≠ .waitTrig →
    (c.chan i).intState = .pending →
    (∀ j : ChanIx, j ≠ i → (c.chan j).intState = .none) →
    w.intEn = false → w.swReset = false →
    ∃ (t u : State) (d e : Chip),
      exec (.wrCtrl k i w) s = .next t ∧ t.chips[k]? = some d ∧
      (d.chan i).intState = .pending ∧ d.localStatus p = .none ∧ d.intOut p = false ∧
      exec (.ack k) t = .fault .ackNotPending ∧
      exec (.wrCtrl k i { w with intEn := true }) t = .next u ∧ u.chips[k]? = some e ∧
      (e.chan i).intState = .pending ∧ e.localStatus p = .pending

/-! ## The chain -/

/-- R140, R133: the interrupt-enable-in of the first chip is `IEI_HEAD` (1 by default), that of a later one is the enable-out of the chip before it, and it is 1 exactly when `IEI_HEAD` is and every chip before it has status NONE. -/
def Obligations.ChainEnableIn : Prop :=
  ∀ (p : Params) (ms : List Chip) (n : Nat), n ≤ ms.length →
    chainIei p ms 0 = p.ieiHead ∧
    (∀ c : Chip, ms[n]? = some c → chainIei p ms (n + 1) = c.ieo p (chainIei p ms n)) ∧
    (chainIei p ms n = true ↔
      p.ieiHead = true ∧ ∀ c ∈ ms.take n, c.localStatus p = .none)

/-- R141: `CHAIN.IRQ` is true exactly when the first member whose status is not NONE is PENDING; equivalently, `IEI_HEAD` being 1 as R140 has it, when some member's `STATUS`, with the `iei` it has in the chain, is PENDING. -/
def Obligations.ChainRequest : Prop :=
  ∀ (s : State) (p : Params) (cs : List Nat) (ms : List Chip), s.params = p → ChainOf s cs ms →
    ∃ b : Bool, exec (.chainIrq cs) s = .next { s with result := .truth b } ∧
      (p.ieiHead = true → (b = true ↔ ∃ (n : Nat) (c : Chip),
        ms[n]? = some c ∧ c.statusFor p (chainIei p ms n) = .pending)) ∧
      (b = true ↔ ∃ (n : Nat) (c : Chip), ms[n]? = some c ∧ c.localStatus p = .pending ∧
        ∀ x ∈ ms.take n, x.localStatus p = .none)

/-- R142: `CHAIN.ACK` is `ACK` on the first member whose status is not NONE, if it is PENDING; else it faults. -/
def Obligations.ChainAcknowledge : Prop :=
  ∀ (s : State) (p : Params) (cs : List Nat) (ms : List Chip), s.params = p → ChainOf s cs ms →
    (∀ (n : Nat) (k : Nat) (c : Chip), cs[n]? = some k → ms[n]? = some c →
      c.localStatus p = .pending → (∀ x ∈ ms.take n, x.localStatus p = .none) →
      ∃ t : State, exec (.chainAck cs) s = .next t ∧ exec (.ack k) s = .next t) ∧
    ((¬ ∃ (n : Nat) (c : Chip), ms[n]? = some c ∧ c.localStatus p = .pending ∧
        ∀ x ∈ ms.take n, x.localStatus p = .none) →
      exec (.chainAck cs) s = .fault .chainAckNoRequest)

/-- R143: `CHAIN.RETI` is `RETI` on the first member with an asserted channel; without one it is a no-op that answers false. -/
def Obligations.ChainReturn : Prop :=
  ∀ (s : State) (cs : List Nat) (ms : List Chip), ChainOf s cs ms →
    ((∀ c ∈ ms, ∀ i : ChanIx, (c.chan i).intState ≠ .asserted) →
      exec (.chainReti cs) s = .next { s with result := .truth false }) ∧
    (∀ (n : Nat) (k : Nat) (c : Chip), cs[n]? = some k → ms[n]? = some c →
      (∃ i : ChanIx, (c.chan i).intState = .asserted) →
      (∀ x ∈ ms.take n, ∀ i : ChanIx, (x.chan i).intState ≠ .asserted) →
      ∃ t : State, exec (.chainReti cs) s = .next t ∧ exec (.reti k) s = .next t ∧
        t.result = .truth true)

/-- R144: a `CHAIN.RETI` right after a `CHAIN.ACK` ends the service that the acknowledge began: the same channel of the same chip goes from asserted to none, and no other channel of any chip differs from before the acknowledge. -/
def Obligations.ReturnEndsLatestService : Prop :=
  ∀ (s t : State) (cs : List Nat), exec (.chainAck cs) s = .next t →
    ∃ (k : Nat) (i : ChanIx) (c d e : Chip) (u : State),
      k ∈ cs ∧ s.chips[k]? = some c ∧ (c.chan i).intState = .pending ∧
      OnlyChip k s t ∧ t.chips[k]? = some d ∧ OnlyChannel i c d ∧
      d.chan i = { c.chan i with intState := .asserted } ∧
      exec (.chainReti cs) t = .next u ∧ u.result = .truth true ∧ OnlyChip k s u ∧
      u.chips[k]? = some e ∧ OnlyChannel i c e ∧ e.chan i = { c.chan i with intState := .none }

/-- R145: a chip whose status is NONE is transparent: its enable-out is its enable-in, and the chain answers `CHAIN.IRQ` as it would without that chip. -/
def Obligations.MiddleChipTransparent : Prop :=
  ∀ (s : State) (k : Nat) (c : Chip) (xs ys : List Nat),
    s.chips[k]? = some c → c.localStatus s.params = .none →
    (∀ iei : Level, c.ieo s.params iei = iei) ∧
    exec (.chainIrq (xs ++ k :: ys)) s = exec (.chainIrq (xs ++ ys)) s

/-! ## Faults and refusals -/

/-- R161: before the first `RESET` every `WR` faults, in every state; the operations that the rule lists do not fault and act on the power-on state, which R27 (clause 8, here the premise `Inv`) says the chip then has. -/
def Obligations.BeforeFirstReset : Prop :=
  (∀ (s : State) (k : Nat) (c : Chip) (o : Instr), s.chips[k]? = some c → c.inited = false →
    IsWrite k o → exec o s = .fault .writeBeforeInit) ∧
  (∀ (s : State) (k : Nat) (c : Chip) (i : ChanIx) (l : Level),
    s.chips[k]? = some c → c.inited = false → c.Inv s.params →
    (∃ b : Byte, ChipCompletes (.rd k i) k s c (.byte b) ∧
      b.toNat = s.params.countPowerOn % 256 ∧ (s.params = Config.params → b = 0x00#8)) ∧
    (∃ d : Chip, ChipCompletes (.trg k i l) k s d .nothing ∧ OnlyChannel i c d ∧
      d.chan i = { c.chan i with extLevel := l }) ∧
    ChipCompletes (.tick k) k s c .nothing ∧
    ChipCompletes (.status k l) k s c (.status .none) ∧
    ChipCompletes (.reti k) k s c (.truth false)) ∧
  (∀ (s : State) (cs : List Nat) (ms : List Chip), ChainOf s cs ms →
    (∀ c ∈ ms, c.inited = false ∧ c.Inv s.params) →
    exec (.chainIrq cs) s = .next { s with result := .truth false } ∧
    exec (.chainReti cs) s = .next { s with result := .truth false })

/-- R162: when `ACK` and `CHAIN.ACK` fault; before the first `RESET` (premise `Inv`, R27 clause 8) every `ACK` does. -/
def Obligations.AcknowledgeFaults : Prop :=
  (∀ (s : State) (k : Nat) (c : Chip), s.chips[k]? = some c →
    (exec (.ack k) s = .fault .ackNotPending ↔ c.localStatus s.params ≠ .pending) ∧
    (c.inited = false → c.Inv s.params → exec (.ack k) s = .fault .ackNotPending)) ∧
  (∀ (s t : State) (cs : List Nat), exec (.chainIrq cs) s = .next t →
    (exec (.chainAck cs) s = .fault .chainAckNoRequest ↔ t.result = .truth false))

/-- R164, R163: on chips that are present, an operation completes or has one of the four exceptional outcomes of the spec's list, each exactly under its condition. -/
def Obligations.ExceptionalOutcomesComplete : Prop :=
  ∀ (s : State) (o : Instr), (∀ k ∈ chipOperands o, k < s.chips.length) →
    (exec o s = .fault .writeBeforeInit ↔
      ∃ k c, IsWrite k o ∧ s.chips[k]? = some c ∧ c.inited = false) ∧
    (exec o s = .fault .ackNotPending ↔
      ∃ k c, o = .ack k ∧ s.chips[k]? = some c ∧ c.localStatus s.params ≠ .pending) ∧
    (exec o s = .fault .chainAckNoRequest ↔
      ∃ cs, o = .chainAck cs ∧ exec (.chainIrq cs) s = .next { s with result := .truth false }) ∧
    (exec o s = .refused .ctrlDropsTriggerWait ↔
      ∃ k i w c, o = .wrCtrl k i w ∧ s.chips[k]? = some c ∧ c.inited = true ∧
        w.swReset = false ∧ (c.chan i).run = .waitTrig ∧
        ¬ (w.counter = false ∧ w.trigger = true ∧ i ∈ s.params.trigChannels)) ∧
    ((∃ t, exec o s = .next t) ∨ exec o s = .fault .writeBeforeInit ∨
      exec o s = .fault .ackNotPending ∨ exec o s = .fault .chainAckNoRequest ∨
      exec o s = .refused .ctrlDropsTriggerWait)

/-- The model's own refusal (notes/assumptions/8.md): an operand that names no chip that is present. -/
def Obligations.AbsentChipRefused : Prop :=
  ∀ (s : State) (o : Instr), (∃ k ∈ chipOperands o, s.chips.length ≤ k) →
    exec o s = .refused .noSuchChip

/-! ## Encoding, decoding, stepping -/

/-- R61, R62 to R64: no bit of an encoding is dropped, under any layout that R62 allows. Every well-formed operation is what its encoding decodes to in the situation that selects it, and no two operations of one such situation share an encoding. -/
def Obligations.DecodeOfEncode : Prop :=
  ∀ (p : Params) (i : Instr), p.cwLayout.wf = true → i.wellFormed = true →
    decode (awaitFor i) (encode i p) p = i ∧
    ∀ j : Instr, j.wellFormed = true → awaitFor j = awaitFor i → encode j p = encode i p → j = i

/-- R61, R67: decoding is total, and what it gives encodes to the very bytes that were decoded, under any layout that R62 allows; it is well formed wherever the request names no chip twice. -/
def Obligations.EncodeOfDecode : Prop :=
  ∀ (p : Params) (awaitTc : Bool) (r : Request), p.cwLayout.wf = true →
    encode (decode awaitTc r p) p = r ∧
    ((∀ cs, r = .chainIrq cs ∨ r = .chainAck cs ∨ r = .chainReti cs → cs.Nodup) →
      (decode awaitTc r p).wellFormed = true)

/-- R61: the decode table of a written byte, row by row; the control word's fields are those of the byte under the layout. -/
def Obligations.WriteDecodeTable : Prop :=
  ∀ (p : Params) (k : Nat) (a : ChanIx) (b : Byte), p.cwLayout.wf = true →
    decode true (.wr k a b) p = .wrTc k a b ∧
    (b[0] = true → ∃ w, decode false (.wr k a b) p = .wrCtrl k a w ∧ w.toByte p.cwLayout = b) ∧
    (b[0] = false → a = 0 → ∃ v, decode false (.wr k a b) p = .wrVec k v ∧ evenByte v = b) ∧
    (b[0] = false → a ≠ 0 → ∃ x, decode false (.wr k a b) p = .wrIgn k a x ∧ evenByte x = b)

/-- R62: which bit of a control word byte is which field, at the default of `CW_LAYOUT` (notes/assumptions/6.md). -/
def Obligations.ControlWordLayout : Prop :=
  ∀ w : ControlWord, ∃ b : Byte, b = w.toByte Config.params.cwLayout ∧
    b[7] = w.intEn ∧ b[6] = w.counter ∧ b[5] = w.prescale256 ∧ b[4] = w.rising ∧
    b[3] = w.trigger ∧ b[2] = w.follows ∧ b[1] = w.swReset ∧ b[0] = true

/-- R13: which bit of `mode` each accessor reads, at the defaults of the parameters (notes/assumptions/6.md). -/
def Obligations.ModeAccessors : Prop :=
  ∀ (p : Params) (c : Channel), p = Config.params →
    c.intEn p = c.mode[7] ∧ c.counter p = c.mode[6] ∧
    ((c.cw p).prescale256 = c.mode[5] ∧ c.prescale p = if c.mode[5] = true then 256 else 16) ∧
    c.rising p = c.mode[4] ∧
    ((c.cw p).trigger = c.mode[3] ∧ c.trig p = (c.mode[3] && decide (c.index = 0))) ∧
    (c.cw p).follows = c.mode[2] ∧ (c.cw p).swReset = c.mode[1]

/-- Sanity: words written out bit by bit from R62 to R64. The last clause, the table's bare item, rests on the model's choice of slot and state (notes/assumptions/10.md). -/
def Obligations.SampleWordsDecode : Prop :=
  decode false (.wr 0 1 0b11010111#8) =
    .wrCtrl 0 1 { intEn := true, counter := true, prescale256 := false, rising := true,
                  trigger := false, follows := true, swReset := true } ∧
  decode false (.wr 0 0 0b00000100#8) = .wrVec 0 0b0000010#7 ∧
  decode true (.wr 0 0 0b00000100#8) = .wrTc 0 0 0x04#8 ∧
  decode false (.wr 2 3 0b01000000#8) = .wrIgn 2 3 0b0100000#7 ∧
  decodeTableWord 8 0x04 = some (.wrVec 0 0b0000010#7)

/-- A step runs the decoded operation, in the state that the operations before it left, and takes it off the environment's list; where the environment invokes nothing, nothing happens (notes/assumptions/1.md). -/
def Obligations.StepRunsDecoded : Prop :=
  (∀ (s : State) (r : Request) (rest : List Request), s.requests = r :: rest →
    step s = exec (decode (s.awaits r) r s.params) { s with requests := rest }) ∧
  (∀ (s : State) (k : Nat) (c : Chip) (a : ChanIx) (b : Byte), s.chips[k]? = some c →
    s.awaits (.wr k a b) = (c.chan a).awaitTc) ∧
  (∀ s : State, s.requests = [] → step s = .next s)

/-- The table's item placed by `withFetchWord` is what the next step runs (notes/assumptions/10.md): as slot 0 of chip 0 decodes it under the machine's parameters, which at their defaults is as `decodeTableWord` does. -/
def Obligations.FetchWordRuns : Prop :=
  ∀ (s t : State) (w : Nat), t = s.withFetchWord 8 w →
    step t = exec (decode false (.wr 0 0 (BitVec.ofNat 8 w)) s.params)
      { t with requests := s.requests } ∧
    ∀ i : Instr, s.params = Config.params → decodeTableWord 8 w = some i →
      step t = exec i { t with requests := s.requests }

/-- R120: what a host's `WR a, b` does when it is stepped, by the byte itself. -/
def Obligations.WriteRouting : Prop :=
  ∀ (s : State) (k : Nat) (c : Chip) (a : ChanIx) (b : Byte) (rest : List Request),
    s.requests = .wr k a b :: rest → s.chips[k]? = some c → s.params.cwLayout.wf = true →
    (c.inited = false → step s = .fault .writeBeforeInit) ∧
    (c.inited = true → a = 0 → (c.chan a).awaitTc = false → b[0] = false →
      step s = .next { s with chips := s.chips.set k { c with vector := b }, requests := rest,
                              result := .nothing }) ∧
    (c.inited = true → a ≠ 0 → (c.chan a).awaitTc = false → b[0] = false →
      step s = .next { s with requests := rest, result := .nothing }) ∧
    (c.inited = true → (c.chan a).awaitTc = true →
      step s = exec (.wrTc k a b) { s with requests := rest }) ∧
    (c.inited = true → (c.chan a).awaitTc = false → b[0] = true →
      ∃ w : ControlWord, w.toByte s.params.cwLayout = b ∧ step s = exec (.wrCtrl k a w) { s with requests := rest })

/-- R195: the byte after a control word with `F` = 1 is the constant, whatever it is and whatever slot 0's vector rule says of it. -/
def Obligations.NextByteIsConstant : Prop :=
  ∀ (s t : State) (k : Nat) (c : Chip) (a : ChanIx) (b v : Byte) (rest : List Request),
    s.requests = .wr k a b :: .wr k a v :: rest → s.chips[k]? = some c →
    (c.chan a).awaitTc = false → b[0] = true →
    (ControlWord.ofByte b s.params.cwLayout).follows = true → step s = .next t →
    ∃ (u : State) (d : Chip), step t = .next u ∧ u.requests = rest ∧ u.chips[k]? = some d ∧
      (d.chan a).tc = (if v = 0#8 then 256 else v.toNat) ∧ (d.chan a).down = (d.chan a).tc ∧
      (d.chan a).run ≠ .stopped ∧ d.vector = c.vector

/-! ## The whole machine -/

/-- R27: every step keeps the invariants of the spec (and the legality of the parameters, notes/assumptions/17.md), from every state that meets them. -/
def Obligations.StepKeepsInvariant : Prop :=
  ∀ s t : State, s.Inv → step s = .next t → t.Inv

/-- R27: the invariants hold at reset and, for any number of chips, any legal parameters (notes/assumptions/17.md) and any draws, at power-on and after a reset of every chip. -/
def Obligations.InvariantAtStart : Prop :=
  State.reset.Inv ∧ ∀ (n : Nat) (p : Params) (draw : Nat → Byte), p.wf = true →
    (State.powerOn n p draw).Inv ∧ (State.resetOf n p draw).Inv

/-- R12, R13, R15, R21, R22, R24, R25: which operations can change which field. -/
def Obligations.WhoWritesWhat : Prop :=
  ∀ (s t : State) (o : Instr) (k : Nat) (c d : Chip) (i : ChanIx),
    exec o s = .next t → s.chips[k]? = some c → t.chips[k]? = some d →
    (d.chan i).index = (c.chan i).index ∧
    ((d.chan i).mode ≠ (c.chan i).mode → o = .reset k ∨ ∃ w, o = .wrCtrl k i w) ∧
    ((d.chan i).awaitTc ≠ (c.chan i).awaitTc →
      o = .reset k ∨ (∃ w, o = .wrCtrl k i w) ∨ ∃ v, o = .wrTc k i v) ∧
    ((d.chan i).tc ≠ (c.chan i).tc → ∃ v, o = .wrTc k i v) ∧
    ((d.chan i).down ≠ (c.chan i).down →
      (∃ v, o = .wrTc k i v) ∨ (∃ l, o = .trg k i l) ∨ o = .tick k) ∧
    ((d.chan i).psc ≠ (c.chan i).psc → o = .reset k ∨ o = .tick k ∨ (∃ w, o = .wrCtrl k i w) ∨
      (∃ v, o = .wrTc k i v) ∨ ∃ l, o = .trg k i l) ∧
    ((d.chan i).run ≠ (c.chan i).run → o = .reset k ∨ (∃ w, o = .wrCtrl k i w ∧ w.swReset = true) ∨
      (∃ v, o = .wrTc k i v) ∨
      ∃ l, o = .trg k i l ∧ (c.chan i).run = .waitTrig ∧ (d.chan i).run = .armed) ∧
    ((d.chan i).extLevel ≠ (c.chan i).extLevel → ∃ l, o = .trg k i l) ∧
    ((d.chan i).zc ≠ (c.chan i).zc → (∃ l, o = .trg k i l) ∨ o = .tick k ∨ o = .reset k) ∧
    (d.vector ≠ c.vector → ∃ v, o = .wrVec k v) ∧
    (d.inited ≠ c.inited → o = .reset k ∧ d.inited = true)

/-- R23: the transitions of a channel's interrupt state; no other exists. -/
def Obligations.InterruptStateTransitions : Prop :=
  ∀ (s t : State) (o : Instr) (k : Nat) (c d : Chip) (i : ChanIx),
    exec o s = .next t → s.chips[k]? = some c → t.chips[k]? = some d →
    (d.chan i).intState ≠ (c.chan i).intState →
    ((c.chan i).intState = .none ∧ (d.chan i).intState = .pending ∧ (c.chan i).intEn s.params = true ∧
      ((o = .tick k ∧ (c.chan i).expiresOnTick s.params = true) ∨
       ∃ l, o = .trg k i l ∧ (c.chan i).expiresOnEdge s.params l = true)) ∨
    ((c.chan i).intState = .pending ∧ (d.chan i).intState = .asserted ∧
      (o = .ack k ∨ ∃ cs, o = .chainAck cs ∧ k ∈ cs)) ∨
    ((c.chan i).intState = .asserted ∧ (d.chan i).intState = .none ∧
      (o = .reti k ∨ ∃ cs, o = .chainReti cs ∧ k ∈ cs)) ∨
    ((d.chan i).intState = .none ∧
      (o = .reset k ∨ ∃ w, o = .wrCtrl k i w ∧ w.swReset = true))

/-- R53, R174: chips share no state: an operation changes at most one chip, one that it names; no chip comes or goes, and the parameters and the environment's list are not touched. -/
def Obligations.ChipsShareNoState : Prop :=
  ∀ (s t : State) (o : Instr), exec o s = .next t →
    (t.params = s.params ∧ t.chips = s.chips ∧ t.requests = s.requests) ∨ ∃ k ∈ chipOperands o, OnlyChip k s t

/-- R47, R171, R174: what an operation does to a chip, and what it answers, depends on that chip alone: two machines with the same parameters that agree on the chips an operation names agree on them afterwards, and on the answer or the stop. -/
def Obligations.OutcomeDependsOnNamedChips : Prop :=
  ∀ (s s' : State) (o : Instr), s'.params = s.params →
    (∀ k ∈ chipOperands o, s'.chips[k]? = s.chips[k]?) →
    (∀ t : State, exec o s = .next t → ∃ t' : State, exec o s' = .next t' ∧
      t'.result = t.result ∧ ∀ k ∈ chipOperands o, t'.chips[k]? = t.chips[k]?) ∧
    (∀ f : Fault, exec o s = .fault f → exec o s' = .fault f) ∧
    (∀ r : Refusal, exec o s = .refused r → exec o s' = .refused r)
end

