-- ==== Sys2Proof/Laws/Encoding.lean ====
section
/-! SUPPORT. The control word and the written byte: what each bit is under the default layout, and that no bit is lost under any layout that meets R62. -/

namespace Sys2Proof

@[simp] theorem ControlWord.ofByte_intEn (b : Byte) : (ofByte b).intEn = b[7] := by
  simp [ofByte, CwField.get, Config.cwLayout]
@[simp] theorem ControlWord.ofByte_counter (b : Byte) : (ofByte b).counter = b[6] := by
  simp [ofByte, CwField.get, Config.cwLayout]
@[simp] theorem ControlWord.ofByte_prescale256 (b : Byte) :
    (ofByte b).prescale256 = b[5] := by
  simp [ofByte, CwField.get, Config.cwLayout]
@[simp] theorem ControlWord.ofByte_rising (b : Byte) : (ofByte b).rising = b[4] := by
  simp [ofByte, CwField.get, Config.cwLayout]
@[simp] theorem ControlWord.ofByte_trigger (b : Byte) : (ofByte b).trigger = b[3] := by
  simp [ofByte, CwField.get, Config.cwLayout]
@[simp] theorem ControlWord.ofByte_follows (b : Byte) : (ofByte b).follows = b[2] := by
  simp [ofByte, CwField.get, Config.cwLayout]
@[simp] theorem ControlWord.ofByte_swReset (b : Byte) : (ofByte b).swReset = b[1] := by
  simp [ofByte, CwField.get, Config.cwLayout]

/-- Every bit of an assembled control word (R62). -/
theorem ControlWord.toByte_bits (w : ControlWord) :
    w.toByte[0] = true ∧ w.toByte[1] = w.swReset ∧
    w.toByte[2] = w.follows ∧ w.toByte[3] = w.trigger ∧
    w.toByte[4] = w.rising ∧ w.toByte[5] = w.prescale256 ∧
    w.toByte[6] = w.counter ∧ w.toByte[7] = w.intEn := by
  obtain ⟨a, b, c, d, e, f, g⟩ := w
  revert a b c d e f g
  decide

/-- Two bytes with the same eight bits are equal. -/
theorem byte_ext {a b : Byte} (h : ∀ n : Fin 8, a.getLsbD n = b.getLsbD n) : a = b :=
  BitVec.eq_of_getLsbD_eq fun n hn => h ⟨n, hn⟩

/-- The byte that holds one field shows it at the field's place. -/
theorem CwField.put_self (f : CwField) (v : Bool) (h : f.pos < 8) :
    (f.put v).getLsbD f.pos = (v == f.active) := by
  unfold CwField.put
  cases hv : v == f.active <;> simp [h]

/-- The byte that holds one field is 0 at every other place. -/
theorem CwField.put_ne (f : CwField) (v : Bool) {n : Nat} (h : n ≠ f.pos) :
    (f.put v).getLsbD n = false := by
  unfold CwField.put
  cases hv : v == f.active <;> simp [BitVec.getLsbD_twoPow, Ne.symm h]

/-- The marker bit is set under every layout (R13, R62). -/
@[simp] theorem ControlWord.toByte_bit0 (w : ControlWord) (L : CwLayout) :
    (w.toByte L)[0] = true := by
  rw [← BitVec.getLsbD_eq_getElem (by omega)]
  simp only [toByte, BitVec.getLsbD_or]
  simp

/-- The fields of a layout that meets R62 stand in different bits, all of them above the marker. -/
theorem CwLayout.wf_places {L : CwLayout} (h : L.wf = true) :
    L.places.Nodup ∧ ∀ n, n ∈ L.places ↔ 1 ≤ n ∧ n < 8 := by
  have hp : L.places.Perm [7, 6, 5, 4, 3, 2, 1] := List.isPerm_iff.1 h
  refine ⟨hp.nodup_iff.2 (by decide), fun n => hp.mem_iff.trans ?_⟩
  simp only [List.mem_cons, List.not_mem_nil, or_false]
  omega

/-- Each field of a control word stands at its place, in its polarity (R62). -/
theorem ControlWord.toByte_fields (w : ControlWord) (L : CwLayout) (h : L.wf = true) :
    (w.toByte L).getLsbD L.intEn.pos = (w.intEn == L.intEn.active) ∧
    (w.toByte L).getLsbD L.counter.pos = (w.counter == L.counter.active) ∧
    (w.toByte L).getLsbD L.prescale256.pos = (w.prescale256 == L.prescale256.active) ∧
    (w.toByte L).getLsbD L.rising.pos = (w.rising == L.rising.active) ∧
    (w.toByte L).getLsbD L.trigger.pos = (w.trigger == L.trigger.active) ∧
    (w.toByte L).getLsbD L.follows.pos = (w.follows == L.follows.active) ∧
    (w.toByte L).getLsbD L.swReset.pos = (w.swReset == L.swReset.active) := by
  obtain ⟨hd, hm⟩ := L.wf_places h
  simp only [CwLayout.places, List.nodup_cons, List.mem_cons, List.not_mem_nil, or_false, not_or,
    List.nodup_nil] at hd hm
  have r := fun n hn => (hm n).1 hn
  have h1 := r L.intEn.pos (by simp)
  have h2 := r L.counter.pos (by simp)
  have h3 := r L.prescale256.pos (by simp)
  have h4 := r L.rising.pos (by simp)
  have h5 := r L.trigger.pos (by simp)
  have h6 := r L.follows.pos (by simp)
  have h7 := r L.swReset.pos (by simp)
  have one : ∀ n, 1 ≤ n → (1#8).getLsbD n = false := fun n hn => by
    simp [BitVec.getLsbD_one]; omega
  clear r hm
  obtain ⟨⟨d12, d13, d14, d15, d16, d17⟩, ⟨d23, d24, d25, d26, d27⟩, ⟨d34, d35, d36, d37⟩,
    ⟨d45, d46, d47⟩, ⟨d56, d57⟩, d67, -⟩ := hd
  simp only [toByte, BitVec.getLsbD_or]
  refine ⟨?_, ?_, ?_, ?_, ?_, ?_, ?_⟩
  · rw [CwField.put_self _ _ h1.2, one _ h1.1]
    simp [CwField.put_ne _ _ d12, CwField.put_ne _ _ d13, CwField.put_ne _ _ d14,
      CwField.put_ne _ _ d15, CwField.put_ne _ _ d16, CwField.put_ne _ _ d17]
  · rw [CwField.put_self _ _ h2.2, one _ h2.1]
    simp [CwField.put_ne _ _ (Ne.symm d12), CwField.put_ne _ _ d23, CwField.put_ne _ _ d24,
      CwField.put_ne _ _ d25, CwField.put_ne _ _ d26, CwField.put_ne _ _ d27]
  · rw [CwField.put_self _ _ h3.2, one _ h3.1]
    simp [CwField.put_ne _ _ (Ne.symm d13), CwField.put_ne _ _ (Ne.symm d23),
      CwField.put_ne _ _ d34, CwField.put_ne _ _ d35, CwField.put_ne _ _ d36,
      CwField.put_ne _ _ d37]
  · rw [CwField.put_self _ _ h4.2, one _ h4.1]
    simp [CwField.put_ne _ _ (Ne.symm d14), CwField.put_ne _ _ (Ne.symm d24),
      CwField.put_ne _ _ (Ne.symm d34), CwField.put_ne _ _ d45, CwField.put_ne _ _ d46,
      CwField.put_ne _ _ d47]
  · rw [CwField.put_self _ _ h5.2, one _ h5.1]
    simp [CwField.put_ne _ _ (Ne.symm d15), CwField.put_ne _ _ (Ne.symm d25),
      CwField.put_ne _ _ (Ne.symm d35), CwField.put_ne _ _ (Ne.symm d45), CwField.put_ne _ _ d56,
      CwField.put_ne _ _ d57]
  · rw [CwField.put_self _ _ h6.2, one _ h6.1]
    simp [CwField.put_ne _ _ (Ne.symm d16), CwField.put_ne _ _ (Ne.symm d26),
      CwField.put_ne _ _ (Ne.symm d36), CwField.put_ne _ _ (Ne.symm d46),
      CwField.put_ne _ _ (Ne.symm d56), CwField.put_ne _ _ d67]
  · rw [CwField.put_self _ _ h7.2, one _ h7.1]
    simp [CwField.put_ne _ _ (Ne.symm d17), CwField.put_ne _ _ (Ne.symm d27),
      CwField.put_ne _ _ (Ne.symm d37), CwField.put_ne _ _ (Ne.symm d47),
      CwField.put_ne _ _ (Ne.symm d57), CwField.put_ne _ _ (Ne.symm d67)]

/-- A fields record is recovered from its byte, under every layout that meets R62. -/
theorem ControlWord.ofByte_toByte (w : ControlWord) (L : CwLayout) (h : L.wf = true) :
    ofByte (w.toByte L) L = w := by
  have key : ∀ v a : Bool, ((v == a) == a) = v := by decide
  obtain ⟨h1, h2, h3, h4, h5, h6, h7⟩ := w.toByte_fields L h
  simp only [ofByte, CwField.get, h1, h2, h3, h4, h5, h6, h7, key]

/-- A byte with the marker bit is recovered from its fields. -/
theorem ControlWord.toByte_ofByte (b : Byte) (L : CwLayout) (hL : L.wf = true)
    (h : b[0] = true) : (ofByte b L).toByte L = b := by
  have key : ∀ v a : Bool, ((v == a) == a) = v := by decide
  obtain ⟨h1, h2, h3, h4, h5, h6, h7⟩ := (ofByte b L).toByte_fields L hL
  simp only [ofByte, CwField.get, key] at h1 h2 h3 h4 h5 h6 h7
  apply byte_ext
  intro n
  by_cases h0 : n.val = 0
  · rw [h0]; exact (ControlWord.toByte_bit0 _ _).trans h.symm
  · have := ((L.wf_places hL).2 n.val).2 ⟨by omega, n.isLt⟩
    simp only [CwLayout.places, List.mem_cons, List.not_mem_nil, or_false] at this
    rcases this with e | e | e | e | e | e | e <;> rw [e] <;> assumption

@[simp] theorem evenByte_bit0 (v : BitVec 7) : (evenByte v)[0] = false := by
  revert v; decide

/-- The number an assembled even byte stands for. -/
theorem evenByte_toNat (v : BitVec 7) : (evenByte v).toNat = 2 * v.toNat := by
  revert v; decide

@[simp] theorem upperBits_evenByte (v : BitVec 7) : upperBits (evenByte v) = v := by
  revert v; decide

/-- A byte with bit 0 clear is recovered from its upper seven bits (R64). -/
theorem evenByte_upperBits (b : Byte) (h : b[0] = false) : evenByte (upperBits b) = b := by
  revert b; decide

/-- What a written byte decodes to while its channel awaits a constant (R61). -/
@[simp] theorem decodeWrite_awaiting (p : Params) (k : Nat) (a : ChanIx) (b : Byte) :
    decodeWrite p k a true b = .wrTc k a b := by simp [decodeWrite, decodeChannelWrite]

/-- What a byte with bit 0 = 1 decodes to while its channel awaits nothing (R61). -/
theorem decodeWrite_odd (p : Params) (k : Nat) (a : ChanIx) (b : Byte) (h : b[0] = true) :
    decodeWrite p k a false b = .wrCtrl k a (ControlWord.ofByte b p.cwLayout) := by
  unfold decodeWrite decodeChannelWrite
  rw [h]; simp

/-- What a byte with bit 0 = 0 decodes to while its channel awaits nothing (R61). -/
theorem decodeWrite_even (p : Params) (k : Nat) (a : ChanIx) (b : Byte) (h : b[0] = false) :
    decodeWrite p k a false b =
      if a = 0 then .wrVec k (upperBits b) else .wrIgn k a (upperBits b) := by
  unfold decodeWrite decodeChannelWrite
  rw [h]
  by_cases ha : a = 0 <;> simp [ha]

/-- The time constant of a byte lies in 1..256 (R15, R63). -/
theorem tcOfByte_range (v : Byte) : 1 ≤ tcOfByte v ∧ tcOfByte v ≤ 256 := by
  revert v; decide

end Sys2Proof
end

