-- ==== Sys2Proof/Laws/State.lean ====
section
/-! SUPPORT. The small lemmas of the record updates of Machine/Ops.lean: one for each field of each update. -/

namespace Sys2Proof.Machine

@[simp] theorem State.put_chips (k : Nat) (c : Chip) (r : Result) (s : State) :
    (s.put k c r).chips = s.chips.set k c := rfl
@[simp] theorem State.put_requests (k : Nat) (c : Chip) (r : Result) (s : State) :
    (s.put k c r).requests = s.requests := rfl
@[simp] theorem State.put_params (k : Nat) (c : Chip) (r : Result) (s : State) :
    (s.put k c r).params = s.params := rfl
@[simp] theorem State.put_result (k : Nat) (c : Chip) (r : Result) (s : State) :
    (s.put k c r).result = r := rfl
@[simp] theorem State.answer_chips (r : Result) (s : State) : (s.answer r).chips = s.chips := rfl
@[simp] theorem State.answer_requests (r : Result) (s : State) :
    (s.answer r).requests = s.requests := rfl
@[simp] theorem State.answer_params (r : Result) (s : State) :
    (s.answer r).params = s.params := rfl
@[simp] theorem State.answer_result (r : Result) (s : State) : (s.answer r).result = r := rfl

@[simp] theorem Chip.updCh_inited (i : ChanIx) (f : Channel → Channel) (k : Chip) :
    (k.updCh i f).inited = k.inited := rfl
@[simp] theorem Chip.updCh_vector (i : ChanIx) (f : Channel → Channel) (k : Chip) :
    (k.updCh i f).vector = k.vector := rfl
@[simp] theorem Chip.updCh_chan_self (i : ChanIx) (f : Channel → Channel) (k : Chip) :
    (k.updCh i f).chan i = f (k.chan i) := by simp [Chip.updCh, Chip.chan]
theorem Chip.updCh_chan_ne (i j : ChanIx) (f : Channel → Channel) (k : Chip) (h : j ≠ i) :
    (k.updCh i f).chan j = k.chan j := by
  have : i.val ≠ j.val := fun e => h (Fin.ext e.symm)
  simp [Chip.updCh, Chip.chan, this]
theorem Chip.updCh_chan (i j : ChanIx) (f : Channel → Channel) (k : Chip) :
    (k.updCh i f).chan j = if j = i then f (k.chan j) else (k.chan j) := by
  by_cases h : j = i
  · subst h; simp
  · simp only [Chip.updCh_chan_ne _ _ _ _ h, h, if_false]

@[simp] theorem Chip.mapCh_inited (f : Channel → Channel) (k : Chip) :
    (k.mapCh f).inited = k.inited := rfl
@[simp] theorem Chip.mapCh_vector (f : Channel → Channel) (k : Chip) :
    (k.mapCh f).vector = k.vector := rfl
@[simp] theorem Chip.mapCh_chan (f : Channel → Channel) (k : Chip) (i : ChanIx) :
    (k.mapCh f).chan i = f (k.chan i) := by
  match i with
  | 0 => rfl
  | 1 => rfl
  | 2 => rfl
  | 3 => rfl

@[simp] theorem Chip.hwReset_inited (k : Chip) : k.hwReset.inited = true := rfl
@[simp] theorem Chip.hwReset_vector (k : Chip) : k.hwReset.vector = k.vector := rfl
@[simp] theorem Chip.hwReset_chan (k : Chip) (i : ChanIx) :
    k.hwReset.chan i = (k.chan i).hwReset := Chip.mapCh_chan Channel.hwReset k i

/-- Two chips are equal when their fields and their four channels are. -/
theorem Chip.ext_chan {c d : Chip} (hi : d.inited = c.inited) (hv : d.vector = c.vector)
    (h : ∀ i : ChanIx, d.chan i = c.chan i) : d = c := by
  cases c; cases d
  simp only at hi hv
  subst hi hv
  congr 1
  exact Vector.ext fun i hlt => h ⟨i, hlt⟩

@[simp] theorem Channel.expiry_index (p : Params) (c : Channel) :
    (c.expiry p).index = c.index := rfl
@[simp] theorem Channel.expiry_mode (p : Params) (c : Channel) :
    (c.expiry p).mode = c.mode := rfl
@[simp] theorem Channel.expiry_awaitTc (p : Params) (c : Channel) :
    (c.expiry p).awaitTc = c.awaitTc := rfl
@[simp] theorem Channel.expiry_tc (p : Params) (c : Channel) :
    (c.expiry p).tc = c.tc := rfl
@[simp] theorem Channel.expiry_down (p : Params) (c : Channel) :
    (c.expiry p).down = c.tc := rfl
@[simp] theorem Channel.expiry_psc (p : Params) (c : Channel) :
    (c.expiry p).psc = c.psc := rfl
@[simp] theorem Channel.expiry_run (p : Params) (c : Channel) :
    (c.expiry p).run = c.run := rfl
@[simp] theorem Channel.expiry_extLevel (p : Params) (c : Channel) :
    (c.expiry p).extLevel = c.extLevel := rfl
@[simp] theorem Channel.expiry_zc (p : Params) (c : Channel) :
    (c.expiry p).zc = !c.zc := rfl
@[simp] theorem Channel.expiry_intState (p : Params) (c : Channel) :
    (c.expiry p).intState =
      if c.intEn p && c.intState == .none then .pending else c.intState := rfl

@[simp] theorem Channel.hwReset_index (c : Channel) :
    c.hwReset.index = c.index := rfl
@[simp] theorem Channel.hwReset_mode (c : Channel) :
    c.hwReset.mode = 0x03#8 := rfl
@[simp] theorem Channel.hwReset_awaitTc (c : Channel) :
    c.hwReset.awaitTc = false := rfl
@[simp] theorem Channel.hwReset_tc (c : Channel) :
    c.hwReset.tc = c.tc := rfl
@[simp] theorem Channel.hwReset_down (c : Channel) :
    c.hwReset.down = c.down := rfl
@[simp] theorem Channel.hwReset_psc (c : Channel) :
    c.hwReset.psc = 0 := rfl
@[simp] theorem Channel.hwReset_run (c : Channel) :
    c.hwReset.run = .stopped := rfl
@[simp] theorem Channel.hwReset_extLevel (c : Channel) :
    c.hwReset.extLevel = c.extLevel := rfl
@[simp] theorem Channel.hwReset_zc (c : Channel) :
    c.hwReset.zc = false := rfl
@[simp] theorem Channel.hwReset_intState (c : Channel) :
    c.hwReset.intState = .none := rfl

@[simp] theorem Channel.writeTc_index (p : Params) (c : Channel) (v : Byte) :
    (c.writeTc p v).index = c.index := rfl
@[simp] theorem Channel.writeTc_mode (p : Params) (c : Channel) (v : Byte) :
    (c.writeTc p v).mode = c.mode := rfl
@[simp] theorem Channel.writeTc_awaitTc (p : Params) (c : Channel) (v : Byte) :
    (c.writeTc p v).awaitTc = false := rfl
@[simp] theorem Channel.writeTc_tc (p : Params) (c : Channel) (v : Byte) :
    (c.writeTc p v).tc = tcOfByte v := rfl
@[simp] theorem Channel.writeTc_down (p : Params) (c : Channel) (v : Byte) :
    (c.writeTc p v).down = tcOfByte v := rfl
@[simp] theorem Channel.writeTc_psc (p : Params) (c : Channel) (v : Byte) :
    (c.writeTc p v).psc = 0 := rfl
@[simp] theorem Channel.writeTc_run (p : Params) (c : Channel) (v : Byte) :
    (c.writeTc p v).run =
      if c.counter p then .armed else if c.trig p then .waitTrig else .armed := rfl
@[simp] theorem Channel.writeTc_extLevel (p : Params) (c : Channel) (v : Byte) :
    (c.writeTc p v).extLevel = c.extLevel := rfl
@[simp] theorem Channel.writeTc_zc (p : Params) (c : Channel) (v : Byte) :
    (c.writeTc p v).zc = c.zc := rfl
@[simp] theorem Channel.writeTc_intState (p : Params) (c : Channel) (v : Byte) :
    (c.writeTc p v).intState = c.intState := rfl

@[simp] theorem Channel.writeCtrl_index (p : Params) (c : Channel) (w : ControlWord) :
    (c.writeCtrl p w).index = c.index := by
  unfold Channel.writeCtrl; cases w.swReset <;> rfl
@[simp] theorem Channel.writeCtrl_mode (p : Params) (c : Channel) (w : ControlWord) :
    (c.writeCtrl p w).mode = w.toByte p.cwLayout := by
  unfold Channel.writeCtrl; cases w.swReset <;> rfl
@[simp] theorem Channel.writeCtrl_awaitTc (p : Params) (c : Channel) (w : ControlWord) :
    (c.writeCtrl p w).awaitTc = w.follows := by
  unfold Channel.writeCtrl; cases w.swReset <;> rfl
@[simp] theorem Channel.writeCtrl_tc (p : Params) (c : Channel) (w : ControlWord) :
    (c.writeCtrl p w).tc = c.tc := by
  unfold Channel.writeCtrl; cases w.swReset <;> rfl
@[simp] theorem Channel.writeCtrl_down (p : Params) (c : Channel) (w : ControlWord) :
    (c.writeCtrl p w).down = c.down := by
  unfold Channel.writeCtrl; cases w.swReset <;> rfl
@[simp] theorem Channel.writeCtrl_psc (p : Params) (c : Channel) (w : ControlWord) :
    (c.writeCtrl p w).psc =
      if w.swReset || (w.counter != (c.cw p).counter || w.prescale256 != (c.cw p).prescale256) then 0 else c.psc := by
  unfold Channel.writeCtrl; cases w.swReset <;> simp
@[simp] theorem Channel.writeCtrl_run (p : Params) (c : Channel) (w : ControlWord) :
    (c.writeCtrl p w).run = if w.swReset then .stopped else c.run := by
  unfold Channel.writeCtrl; cases w.swReset <;> simp
@[simp] theorem Channel.writeCtrl_extLevel (p : Params) (c : Channel) (w : ControlWord) :
    (c.writeCtrl p w).extLevel = c.extLevel := by
  unfold Channel.writeCtrl; cases w.swReset <;> rfl
@[simp] theorem Channel.writeCtrl_zc (p : Params) (c : Channel) (w : ControlWord) :
    (c.writeCtrl p w).zc = c.zc := by
  unfold Channel.writeCtrl; cases w.swReset <;> rfl
@[simp] theorem Channel.writeCtrl_intState (p : Params) (c : Channel) (w : ControlWord) :
    (c.writeCtrl p w).intState = if w.swReset then .none else c.intState := by
  unfold Channel.writeCtrl; cases w.swReset <;> simp

end Sys2Proof.Machine
end

