-- ==== Sys2Proof/Laws/Ops.lean ====
section
/-! SUPPORT. For each shared operation, what it can answer; for each flag, what it says of the state. -/

namespace Sys2Proof.Machine

/-! ### Flags -/

@[simp] theorem Channel.cw_eq (p : Params) (c : Channel) :
    c.cw p = ControlWord.ofByte c.mode p.cwLayout := rfl
@[simp] theorem Channel.intEn_eq (p : Params) (c : Channel) :
    c.intEn p = (ControlWord.ofByte c.mode p.cwLayout).intEn := rfl
@[simp] theorem Channel.counter_eq (p : Params) (c : Channel) :
    c.counter p = (ControlWord.ofByte c.mode p.cwLayout).counter := rfl
@[simp] theorem Channel.rising_eq (p : Params) (c : Channel) :
    c.rising p = (ControlWord.ofByte c.mode p.cwLayout).rising := rfl
theorem Channel.trig_eq (p : Params) (c : Channel) :
    c.trig p = ((ControlWord.ofByte c.mode p.cwLayout).trigger &&
      decide (c.index ∈ p.trigChannels)) := rfl
theorem Channel.prescale_eq (p : Params) (c : Channel) :
    c.prescale p =
      if (ControlWord.ofByte c.mode p.cwLayout).prescale256 = true then 256 else 16 := rfl
theorem Channel.prescale_pos (p : Params) (c : Channel) : 0 < c.prescale p := by
  rw [Channel.prescale_eq]; split <;> decide

/-- After a control word the channel's fields are the word's, under a layout that meets R62. -/
theorem Channel.writeCtrl_cw (p : Params) (c : Channel) (w : ControlWord)
    (h : p.cwLayout.wf = true) : (c.writeCtrl p w).cw p = w := by
  rw [Channel.cw_eq, Channel.writeCtrl_mode, ControlWord.ofByte_toByte w _ h]

theorem Channel.dropsTriggerWait_iff (p : Params) (i : ChanIx) (w : ControlWord) (c : Channel) :
    c.dropsTriggerWait p i w = true ↔
      w.swReset = false ∧ c.run = .waitTrig ∧
        ¬ (w.counter = false ∧ w.trigger = true ∧ i ∈ p.trigChannels) := by
  unfold Channel.dropsTriggerWait
  cases w.swReset <;> cases w.counter <;> cases w.trigger <;> simp

/-- A channel walk in index order finds something exactly when some channel has the property. -/
theorem chanIxs_any (p : ChanIx → Bool) : chanIxs.any p = true ↔ ∃ i, p i = true := by
  simp [chanIxs, Fin.exists_fin_succ]

/-- The channel found first is the lowest with the property. -/
theorem chanIxs_find_some (p : ChanIx → Bool) (i : ChanIx) :
    chanIxs.find? p = some i ↔ p i = true ∧ ∀ j, p j = true → i ≤ j := by
  have h : ∀ a b c d : Bool, ∀ i : Fin 4,
      ((if a then some (0 : Fin 4) else if b then some 1 else if c then some 2
        else if d then some 3 else none) = some i ↔
        (#[a, b, c, d] : Array Bool)[i]! = true ∧
          ∀ j : Fin 4, (#[a, b, c, d] : Array Bool)[j]! = true → i ≤ j) := by decide
  have e : ∀ j : Fin 4, (#[p 0, p 1, p 2, p 3] : Array Bool)[j]! = p j := by
    intro j; match j with
    | 0 => rfl
    | 1 => rfl
    | 2 => rfl
    | 3 => rfl
  have h' := h (p 0) (p 1) (p 2) (p 3) i
  simp only [e] at h'
  rw [← h']
  simp only [chanIxs, List.find?_cons, List.find?_nil]
  cases p 0 <;> cases p 1 <;> cases p 2 <;> cases p 3 <;> simp

theorem Chip.anyAsserted_iff (k : Chip) :
    k.anyAsserted = true ↔ ∃ i : ChanIx, (k.chan i).intState = .asserted := by
  rw [Chip.anyAsserted, chanIxs_any]; simp [Channel.inService]

theorem Chip.anyPending_iff (p : Params) (k : Chip) : k.anyPending p = true ↔
    ∃ i : ChanIx, (k.chan i).intEn p = true ∧ (k.chan i).intState = .pending := by
  rw [Chip.anyPending, chanIxs_any]; simp [Channel.requesting]

theorem Chip.localStatus_asserted (p : Params) (k : Chip) :
    k.localStatus p = .asserted ↔ k.anyAsserted = true := by
  unfold Chip.localStatus; cases k.anyAsserted <;> cases k.anyPending p <;> simp

theorem Chip.localStatus_pending (p : Params) (k : Chip) :
    k.localStatus p = .pending ↔ k.anyAsserted = false ∧ k.anyPending p = true := by
  unfold Chip.localStatus; cases k.anyAsserted <;> cases k.anyPending p <;> simp

theorem Chip.localStatus_none (p : Params) (k : Chip) :
    k.localStatus p = .none ↔ k.anyAsserted = false ∧ k.anyPending p = false := by
  unfold Chip.localStatus; cases k.anyAsserted <;> cases k.anyPending p <;> simp

theorem Chip.ackChannel_some (p : Params) (k : Chip) (i : ChanIx) : k.ackChannel p = some i ↔
    ((k.chan i).intEn p = true ∧ (k.chan i).intState = .pending) ∧
      ∀ j : ChanIx, (k.chan j).intEn p = true → (k.chan j).intState = .pending → i ≤ j := by
  simp [Chip.ackChannel, chanIxs_find_some, Channel.requesting]

theorem Chip.serviceChannel_some (k : Chip) (i : ChanIx) : k.serviceChannel = some i ↔
    (k.chan i).intState = .asserted ∧
      ∀ j : ChanIx, (k.chan j).intState = .asserted → i ≤ j := by
  simp [Chip.serviceChannel, chanIxs_find_some, Channel.inService]

theorem Chip.serviceChannel_isSome (k : Chip) : k.serviceChannel.isSome = k.anyAsserted := by
  rw [Chip.serviceChannel, Chip.anyAsserted, Bool.eq_iff_iff, List.find?_isSome, List.any_eq_true]

theorem Chip.ackChannel_isSome (p : Params) (k : Chip) : (k.ackChannel p).isSome = k.anyPending p := by
  rw [Chip.ackChannel, Chip.anyPending, Bool.eq_iff_iff, List.find?_isSome, List.any_eq_true]

/-! ### Operations on one chip -/

theorem State.chip?_eq (s : State) (k : Nat) : s.chip? k = s.chips[k]? := rfl

/-- An operation on a chip that is present is what it does to that chip. -/
theorem onChip_of (k : Nat) (f : Chip → Effect) (s : State) (c : Chip)
    (h : s.chips[k]? = some c) :
    onChip k f s = match f c with
      | .next p => .next (s.put k p.1 p.2)
      | .fault e => .fault e
      | .refused e => .refused e := by
  cases hf : f c <;> simp [onChip, State.chip?_eq, h, hf]

/-- An operation on a chip that is not present is refused. -/
theorem onChip_absent (k : Nat) (f : Chip → Effect) (s : State) (h : s.chips[k]? = none) :
    onChip k f s = .refused .noSuchChip := by
  simp [onChip, State.chip?_eq, h]

/-- If an operation on a chip completes, the chip is there and only it is replaced. -/
theorem onChip_next {k : Nat} {f : Chip → Effect} {s t : State} (h : onChip k f s = .next t) :
    ∃ c d r, s.chips[k]? = some c ∧ f c = .next (d, r) ∧ t = s.put k d r := by
  cases hc : s.chips[k]? with
  | none => simp [onChip_absent _ _ _ hc] at h
  | some c =>
    rw [onChip_of _ _ _ _ hc] at h
    cases hf : f c with
    | next p => simp [hf] at h; exact ⟨c, p.1, p.2, rfl, hf, h.symm⟩
    | fault e => simp [hf] at h
    | refused e => simp [hf] at h

/-- Where a chip is put back, that chip is found and every other is as before. -/
theorem State.put_getElem? (s : State) (k : Nat) (c d : Chip) (r : Result) (j : Nat)
    (h : s.chips[k]? = some c) :
    (s.put k d r).chips[j]? = if j = k then some d else s.chips[j]? := by
  have hk : k < s.chips.length := (List.getElem?_eq_some_iff.1 h).1
  by_cases hj : j = k
  · subst hj; simp [hk]
  · have : k ≠ j := fun e => hj e.symm
    simp [hj, this]

/-- Putting back the chip that stands there changes nothing but the answer. -/
theorem State.put_same (s : State) (k : Nat) (c : Chip) (r : Result) (h : s.chips[k]? = some c) :
    s.put k c r = s.answer r := by
  obtain ⟨hk, rfl⟩ := List.getElem?_eq_some_iff.1 h
  simp [State.put, State.answer]

/-- A change of one channel that leaves it as it is leaves the chip as it is. -/
theorem Chip.updCh_same (i : ChanIx) (f : Channel → Channel) (c : Chip)
    (h : f (c.chan i) = c.chan i) : c.updCh i f = c := by
  refine Chip.ext_chan (c.updCh_inited i f) (c.updCh_vector i f) fun j => ?_
  rw [Chip.updCh_chan]; split
  · rename_i e; rw [e, h]
  · rfl

theorem State.put_onlyChip (s : State) (k : Nat) (d : Chip) (r : Result) :
    OnlyChip k s (s.put k d r) := by
  refine ⟨rfl, rfl, by simp, fun j hj => ?_⟩
  have : k ≠ j := fun e => hj e.symm
  simp [this]

theorem Chip.updCh_onlyChannel (i : ChanIx) (f : Channel → Channel) (c : Chip) :
    OnlyChannel i c (c.updCh i f) :=
  ⟨rfl, rfl, fun j hj => Chip.updCh_chan_ne i j f c hj⟩

/-- A chip operation that answers a chip and a value completes on the machine. -/
theorem completes_of {o : Instr} {k : Nat} {f : Chip → Effect} {s : State} {c d : Chip}
    {r : Result} (ho : exec o s = onChip k f s) (h : s.chips[k]? = some c)
    (hf : f c = .next (d, r)) : ChipCompletes o k s d r := by
  refine ⟨s.put k d r, ?_, ?_, s.put_onlyChip k d r, rfl⟩
  · rw [ho, onChip_of _ _ _ _ h, hf]
  · rw [State.put_getElem? s k c d r k h]; simp

theorem hostWrite_inited {f : Chip → Effect} {c : Chip} (h : c.inited = true) :
    hostWrite f c = f c := by simp [hostWrite, h]

theorem hostWrite_next {f : Chip → Effect} {c : Chip} {p : Chip × Result}
    (h : hostWrite f c = .next p) : c.inited = true ∧ f c = .next p := by
  unfold hostWrite at h
  split at h
  · exact ⟨‹_›, h⟩
  · cases h

/-- What an acknowledge that completes has done (R136). -/
theorem Chip.acknowledge_next {p : Params} {c d : Chip} {r : Result} (h : c.acknowledge p = .next (d, r)) :
    ∃ i, c.localStatus p = .pending ∧ c.ackChannel p = some i ∧
      d = c.updCh i (fun x => { x with intState := .asserted }) ∧
      r = .byte (c.effectiveVector i) := by
  unfold Chip.acknowledge at h
  split at h
  · rename_i hp
    cases hi : c.ackChannel p with
    | none => simp [hi] at h
    | some i => simp [hi] at h; exact ⟨i, hp, rfl, h.1.symm, h.2.symm⟩
  · cases h

/-- An acknowledge completes exactly when the status is PENDING, and else faults (R136, R162). -/
theorem Chip.acknowledge_cases (p : Params) (c : Chip) :
    (c.localStatus p = .pending ∧ ∃ i, c.ackChannel p = some i ∧ c.acknowledge p =
      .next (c.updCh i (fun x => { x with intState := .asserted }), .byte (c.effectiveVector i))) ∨
    (c.localStatus p ≠ .pending ∧ c.acknowledge p = .fault .ackNotPending) := by
  by_cases hp : c.localStatus p = .pending
  · left
    refine ⟨hp, ?_⟩
    have := (Chip.localStatus_pending p c).1 hp
    rw [← Chip.ackChannel_isSome] at this
    obtain ⟨i, hi⟩ := Option.isSome_iff_exists.1 this.2
    exact ⟨i, hi, by simp [Chip.acknowledge, hp, hi]⟩
  · right; exact ⟨hp, by simp [Chip.acknowledge, hp]⟩

/-- What a return from interrupt does: it always completes (R138). -/
theorem Chip.returnFromInterrupt_cases (c : Chip) :
    (∃ i, c.serviceChannel = some i ∧ c.returnFromInterrupt =
      .next (c.updCh i (fun x => { x with intState := .none }), .truth true)) ∨
    (c.anyAsserted = false ∧ c.returnFromInterrupt = .next (c, .truth false)) := by
  cases h : c.serviceChannel with
  | none =>
    right
    refine ⟨?_, by simp [Chip.returnFromInterrupt, h]⟩
    have := Chip.serviceChannel_isSome c
    simpa [h] using this.symm
  | some i => left; exact ⟨i, rfl, by simp [Chip.returnFromInterrupt, h]⟩

/-! ### The countdown of one channel -/

/-- One decrement that reaches 0 is an expiry; any other lowers the counter by one. -/
theorem Channel.decrement_cases (p : Params) (c : Channel) :
    (c.down - 1 = 0 ∧ c.decrement p = { c with
      down := c.tc
      zc := !c.zc
      intState := if c.intEn p && c.intState == .none then .pending else c.intState }) ∨
    (c.down - 1 ≠ 0 ∧ c.decrement p = { c with down := c.down - 1 }) := by
  unfold Channel.decrement
  by_cases h : c.down - 1 = 0
  · left; exact ⟨h, by simp only [h, if_true]; rfl⟩
  · right; exact ⟨h, by simp only [h, if_false]⟩

/-- The three things a tick can do to a channel (R103). -/
theorem Channel.tick_cases (p : Params) (c : Channel) :
    (c.ticking p = false ∧ c.tick p = c) ∨
    (c.ticking p = true ∧ c.psc + 1 ≠ c.prescale p ∧ c.tick p = { c with psc := c.psc + 1 }) ∨
    (c.ticking p = true ∧ c.psc + 1 = c.prescale p ∧ c.tick p = { c with psc := 0 }.decrement p) := by
  unfold Channel.tick
  by_cases h : c.ticking p = true
  · by_cases hp : c.psc + 1 = c.prescale p
    · right; right; exact ⟨h, hp, by simp only [h, hp, if_true]⟩
    · right; left; exact ⟨h, hp, by simp only [h, hp, if_true, if_false]⟩
  · left; simp only [Bool.not_eq_true] at h; exact ⟨h, by simp [h]⟩

/-- The four things an observed level can do to a channel (R100). -/
theorem Channel.trg_cases (p : Params) (l : Level) (c : Channel) :
    (l = c.extLevel ∧ c.trg p l = c) ∨
    (c.qualifies p l = true ∧ c.run = .waitTrig ∧
      c.trg p l = { c with extLevel := l, run := .armed, psc := 0 }) ∨
    (c.qualifies p l = true ∧ c.run = .armed ∧ c.counter p = true ∧
      c.trg p l = { c with extLevel := l }.decrement p) ∨
    (l ≠ c.extLevel ∧
      (l = c.rising p → c.run ≠ .waitTrig ∧ ¬ (c.run = .armed ∧ c.counter p = true)) ∧
      c.trg p l = { c with extLevel := l }) := by
  unfold Channel.trg Channel.qualifies
  by_cases h : l = c.extLevel
  · left; exact ⟨h, by rw [if_pos h]⟩
  · rw [if_neg h]
    by_cases hr : l = c.rising p
    · by_cases hw : c.run = .waitTrig
      · right; left; refine ⟨by rw [← hr]; simpa using h, hw, ?_⟩
        simp only [hw, if_true, if_pos hr]
      · by_cases ha : c.counter p = true ∧ c.run = .armed
        · right; right; left
          refine ⟨by rw [← hr]; simpa using h, ha.2, ha.1, ?_⟩
          simp only [if_pos hr, if_neg hw, if_pos ha]
        · right; right; right
          refine ⟨h, fun _ => ⟨hw, fun e => ha ⟨e.2, e.1⟩⟩, ?_⟩
          simp only [if_pos hr, if_neg hw, if_neg ha]
    · right; right; right
      exact ⟨h, fun e => absurd e hr, by simp only [if_neg hr]⟩

/-! ### The chain -/

/-- The members of a chain are its chips in order, when all are present. -/
theorem State.members?_some (s : State) (cs : List Nat) (ms : List (Nat × Chip)) :
    s.members? cs = some ms ↔
      ms.map Prod.fst = cs ∧ cs.map (fun k => s.chips[k]?) = ms.map (fun m => some m.2) := by
  induction cs generalizing ms with
  | nil =>
    simp only [State.members?, Option.some.injEq, List.map_nil, List.map_eq_nil_iff]
    constructor
    · rintro rfl; exact ⟨rfl, rfl⟩
    · rintro ⟨h, -⟩; exact h.symm
  | cons k ks ih =>
    simp only [State.members?, State.chip?_eq]
    cases hc : s.chips[k]? with
    | none => cases ms <;> simp [hc]
    | some c =>
      cases hm : s.members? ks with
      | none =>
        simp only [reduceCtorEq, false_iff]
        rintro ⟨h1, h2⟩
        cases ms with
        | nil => simp at h1
        | cons m ms =>
          simp only [List.map_cons, List.cons.injEq] at h1 h2
          have := (ih ms).2 ⟨h1.2, h2.2⟩
          simp [hm] at this
      | some ns =>
        have := (ih ns).1 hm
        constructor
        · rintro h
          cases h
          simp [this.1, this.2, hc]
        · rintro ⟨h1, h2⟩
          cases ms with
          | nil => simp at h1
          | cons m ms =>
            simp only [List.map_cons, List.cons.injEq, hc, Option.some.injEq] at h1 h2
            have h3 := (ih ms).2 ⟨h1.2, h2.2⟩
            rw [hm] at h3
            cases h3
            rw [← h1.1, h2.1]

/-- A list of chips that are all present gives the members of the chain. -/
theorem State.members?_of (s : State) (cs : List Nat) (ms : List Chip) (h : ChainOf s cs ms) :
    s.members? cs = some (cs.zip ms) := by
  have hl : cs.length = ms.length := by simpa using congrArg List.length h
  refine (State.members?_some _ _ _).2 ⟨List.map_fst_zip (Nat.le_of_eq hl), ?_⟩
  rw [h]
  have := List.map_snd_zip (l₁ := cs) (l₂ := ms) (Nat.le_of_eq hl.symm)
  calc ms.map some = ((cs.zip ms).map Prod.snd).map some := by rw [this]
    _ = _ := by simp

/-- A chain has its members exactly when each chip it names is present. -/
theorem State.members?_isSome (s : State) (cs : List Nat) :
    (s.members? cs).isSome = true ↔ ∀ k ∈ cs, k < s.chips.length := by
  induction cs with
  | nil => simp [State.members?]
  | cons k ks ih =>
    simp only [State.members?, State.chip?_eq]
    by_cases hk : k < s.chips.length
    · have : s.chips[k]? = some s.chips[k] := by simp [hk]
      rw [this]
      cases hm : s.members? ks with
      | none => simp [hm] at ih; obtain ⟨x, hx, hlt⟩ := ih; simp [hk]; exact ⟨x, hx, hlt⟩
      | some ns => simp [hm] at ih; simpa [hk] using ih
    · have : s.chips[k]? = none := List.getElem?_eq_none (by omega)
      rw [this]; simp [hk]

/-- Every member of a chain is a chip of the machine under its number, and one the list names. -/
theorem State.mem_members {s : State} {cs : List Nat} {ms : List (Nat × Chip)}
    (h : s.members? cs = some ms) {m : Nat × Chip} (hm : m ∈ ms) :
    m.1 ∈ cs ∧ s.chips[m.1]? = some m.2 := by
  obtain ⟨h1, h2⟩ := (State.members?_some s cs ms).1 h
  refine ⟨h1 ▸ List.mem_map_of_mem hm, ?_⟩
  rw [← h1, List.map_map] at h2
  exact (List.map_inj_left.1 h2) m hm

/-- The requester is the first chip whose status is not NONE, and it is PENDING (R141, R142). -/
theorem chainRequester_some (p : Params) (ms : List (Nat × Chip)) (k : Nat) :
    chainRequester p ms = some k ↔ ∃ n c, ms[n]? = some (k, c) ∧ c.localStatus p = .pending ∧
      ∀ m ∈ ms.take n, m.2.localStatus p = .none := by
  induction ms with
  | nil => simp [chainRequester]
  | cons m ms ih =>
    unfold chainRequester
    cases hs : m.2.localStatus p with
    | pending =>
      constructor
      · intro h; cases h; exact ⟨0, m.2, rfl, hs, by simp⟩
      · rintro ⟨n, c, h1, -, h3⟩
        cases n with
        | zero => cases h1; rfl
        | succ n => have := h3 m (by simp); rw [hs] at this; cases this
    | asserted =>
      refine ⟨fun h => (by cases h), ?_⟩
      rintro ⟨n, c, h1, h2, h3⟩
      cases n with
      | zero => cases h1; rw [hs] at h2; cases h2
      | succ n => have := h3 m (by simp); rw [hs] at this; cases this
    | none =>
      rw [ih]
      constructor
      · rintro ⟨n, c, h1, h2, h3⟩
        refine ⟨n + 1, c, h1, h2, ?_⟩
        intro x hx
        simp only [List.take_succ_cons, List.mem_cons] at hx
        rcases hx with rfl | hx
        · exact hs
        · exact h3 x hx
      · rintro ⟨n, c, h1, h2, h3⟩
        cases n with
        | zero => cases h1; rw [hs] at h2; cases h2
        | succ n => exact ⟨n, c, h1, h2, fun x hx => h3 x (by simp [hx])⟩

/-- The requester is a member with status PENDING. -/
theorem chainRequester_mem {p : Params} {ms : List (Nat × Chip)} {k : Nat}
    (h : chainRequester p ms = some k) : ∃ c, (k, c) ∈ ms ∧ c.localStatus p = .pending := by
  obtain ⟨n, c, h1, h2, -⟩ := (chainRequester_some p ms k).1 h
  exact ⟨c, List.mem_of_getElem? h1, h2⟩

/-- The chip found by a chain's return is a member with an asserted channel. -/
theorem chainInService_mem {ms : List (Nat × Chip)} {k : Nat}
    (h : chainInService ms = some k) : ∃ c, (k, c) ∈ ms ∧ c.anyAsserted = true := by
  unfold chainInService at h
  cases hf : ms.find? (fun m => m.2.anyAsserted) with
  | none => simp [hf] at h
  | some m =>
    simp [hf] at h
    subst h
    exact ⟨m.2, List.mem_of_find?_eq_some hf, by simpa using List.find?_some hf⟩

theorem onChain_of {cs : List Nat} {ms : List (Nat × Chip)} {s : State}
    (f : List (Nat × Chip) → State → Host.Outcome State Fault Refusal)
    (h : s.members? cs = some ms) : onChain cs f s = f ms s := by simp [onChain, h]

/-- If an operation on a chain completes, every member is present. -/
theorem onChain_next {cs : List Nat} {s t : State}
    {f : List (Nat × Chip) → State → Host.Outcome State Fault Refusal}
    (h : onChain cs f s = .next t) : ∃ ms, s.members? cs = some ms ∧ f ms s = .next t := by
  unfold onChain at h
  cases hm : s.members? cs with
  | none => simp [hm] at h
  | some ms => simp [hm] at h; exact ⟨ms, rfl, h⟩

end Sys2Proof.Machine
end

