-- ==== Sys2Proof/Laws/PerInstr.lean ====
section
/-! SUPPORT. Statements for every operation, one lemma for each constructor of `Instr`. Family `TableRow`: the encoding of an operation meets its row of spec/opcode_table.json. -/

namespace Sys2Proof.Laws.TableRow

/-- A written byte meets a row's `mask` and `match`. -/
abbrev Meets (b mask m : Byte) : Prop := b &&& mask = m

/-- The row of spec/opcode_table.json (R69): `match`, `mask` and the slot condition of `when` for the four decodings of `WR`; no written byte for the other rows. Under every `CW_LAYOUT`. -/
def Statement : Instr → Prop
  | .wrVec k v => ∀ p, ∃ b, encode (.wrVec k v) p = .wr k 0 b ∧ Meets b 0x01#8 0x00#8
  | .wrCtrl k i w => ∀ p, ∃ b, encode (.wrCtrl k i w) p = .wr k i b ∧ Meets b 0x01#8 0x01#8
  | .wrTc k i v => ∀ p, ∃ b, encode (.wrTc k i v) p = .wr k i b ∧ Meets b 0x00#8 0x00#8
  | .wrIgn k i x => (Instr.wrIgn k i x).wellFormed = true →
      ∀ p, ∃ a b, encode (.wrIgn k i x) p = .wr k a b ∧ a ≠ 0 ∧ Meets b 0x01#8 0x00#8
  | i => ∀ p k a b, encode i p ≠ .wr k a b

theorem wrVec (k : Nat) (v : BitVec 7) : Statement (.wrVec k v) :=
  fun _ => ⟨evenByte v, rfl, by revert v; decide⟩
theorem wrCtrl (k : Nat) (i : ChanIx) (w : ControlWord) : Statement (.wrCtrl k i w) := by
  refine fun p => ⟨w.toByte p.cwLayout, rfl, ?_⟩
  have h : ∀ b : Byte, b[0] = true → Meets b 0x01#8 0x01#8 := by decide
  exact h _ (ControlWord.toByte_bit0 w p.cwLayout)
theorem wrTc (k : Nat) (i : ChanIx) (v : Byte) : Statement (.wrTc k i v) :=
  fun _ => ⟨v, rfl, BitVec.and_zero⟩
theorem wrIgn (k : Nat) (i : ChanIx) (x : BitVec 7) : Statement (.wrIgn k i x) :=
  fun h _ =>
    ⟨i, evenByte x, rfl, by simpa [Instr.wellFormed] using h, by clear h; revert x; decide⟩
theorem rd (k : Nat) (i : ChanIx) : Statement (.rd k i) := nofun
theorem trg (k : Nat) (i : ChanIx) (l : Level) : Statement (.trg k i l) := nofun
theorem tick (k : Nat) : Statement (.tick k) := nofun
theorem reset (k : Nat) : Statement (.reset k) := nofun
theorem status (k : Nat) (iei : Level) : Statement (.status k iei) := nofun
theorem ack (k : Nat) : Statement (.ack k) := nofun
theorem reti (k : Nat) : Statement (.reti k) := nofun
theorem chainIrq (cs : List Nat) : Statement (.chainIrq cs) := nofun
theorem chainAck (cs : List Nat) : Statement (.chainAck cs) := nofun
theorem chainReti (cs : List Nat) : Statement (.chainReti cs) := nofun

end Sys2Proof.Laws.TableRow
end

