-- ==== Sys2Proof/Laws/Step.lean ====
section
/-! SUPPORT. What one operation can do, said once: every completed operation is a listed change of one chip, or an answer alone. -/

namespace Sys2Proof.Machine

/-! ### Each meaning as its shared operation -/

theorem exec_wrVec (k : Nat) (v : BitVec 7) (s : State) : exec (.wrVec k v) s =
    onChip k (hostWrite (completes (fun c => { c with vector := evenByte v }) fun _ => .nothing)) s :=
  rfl
theorem exec_wrCtrl (k : Nat) (i : ChanIx) (w : ControlWord) (s : State) : exec (.wrCtrl k i w) s =
    onChip k (hostWrite fun c =>
      if (c.chan i).dropsTriggerWait s.params i w then .refused .ctrlDropsTriggerWait
      else .next (c.updCh i (Channel.writeCtrl s.params w), .nothing)) s := rfl
theorem exec_wrTc (k : Nat) (i : ChanIx) (v : Byte) (s : State) : exec (.wrTc k i v) s =
    onChip k (hostWrite (completes (Chip.updCh i (Channel.writeTc s.params v)) fun _ => .nothing)) s := rfl
theorem exec_wrIgn (k : Nat) (i : ChanIx) (x : BitVec 7) (s : State) : exec (.wrIgn k i x) s =
    onChip k (hostWrite (completes (fun c => c) fun _ => .nothing)) s := rfl
theorem exec_rd (k : Nat) (i : ChanIx) (s : State) : exec (.rd k i) s =
    onChip k (completes (fun c => c) fun c => .byte (c.chan i).readByte) s := rfl
theorem exec_trg (k : Nat) (i : ChanIx) (l : Level) (s : State) : exec (.trg k i l) s =
    onChip k (completes (Chip.updCh i (Channel.trg s.params l)) fun _ => .nothing) s := rfl
theorem exec_tick (k : Nat) (s : State) : exec (.tick k) s =
    onChip k (completes (Chip.mapCh (Channel.tick s.params)) fun _ => .nothing) s := rfl
theorem exec_reset (k : Nat) (s : State) : exec (.reset k) s =
    onChip k (completes Chip.hwReset fun _ => .nothing) s := rfl
theorem exec_status (k : Nat) (iei : Level) (s : State) : exec (.status k iei) s =
    onChip k (completes (fun c => c) fun c => .status (c.statusFor s.params iei)) s := rfl
theorem exec_ack (k : Nat) (s : State) :
    exec (.ack k) s = onChip k (Chip.acknowledge s.params) s := rfl
theorem exec_reti (k : Nat) (s : State) :
    exec (.reti k) s = onChip k Chip.returnFromInterrupt s := rfl
theorem exec_chainIrq (cs : List Nat) (s : State) : exec (.chainIrq cs) s =
    onChain cs (fun ms s => .next (s.answer (.truth (chainRequester s.params ms).isSome))) s := rfl
theorem exec_chainAck (cs : List Nat) (s : State) : exec (.chainAck cs) s =
    onChain cs (fun ms s => match chainRequester s.params ms with
      | none => .fault .chainAckNoRequest
      | some k => onChip k (Chip.acknowledge s.params) s) s := rfl
theorem exec_chainReti (cs : List Nat) (s : State) : exec (.chainReti cs) s =
    onChain cs (fun ms s => match chainInService ms with
      | none => .next (s.answer (.truth false))
      | some k => onChip k Chip.returnFromInterrupt s) s := rfl

/-- An operation made of `completes` completes wherever its chip is present. -/
theorem completes_chip {o : Instr} {k : Nat} {f : Chip → Chip} {r : Chip → Result} {s : State}
    {c : Chip} (ho : exec o s = onChip k (completes f r) s) (h : s.chips[k]? = some c) :
    ChipCompletes o k s (f c) (r c) := completes_of ho h rfl

/-- A write made of `completes` completes on a chip that has been reset. -/
theorem completes_write {o : Instr} {k : Nat} {f : Chip → Chip} {r : Chip → Result} {s : State}
    {c : Chip} (ho : exec o s = onChip k (hostWrite (completes f r)) s)
    (h : s.chips[k]? = some c) (hi : c.inited = true) : ChipCompletes o k s (f c) (r c) :=
  completes_of ho h (hostWrite_inited hi)

/-- Under the parameters `p`, `o` can take chip `c`, whose number is `k`, to chip `d`. One constructor for each way a chip can be written; the premises are all that the operation tests. -/
inductive ChipStep (p : Params) : Instr → Nat → Chip → Chip → Prop where
  | same (o : Instr) (k : Nat) (c : Chip) : ChipStep p o k c c
  | vec (k : Nat) (v : BitVec 7) (c : Chip) (h : c.inited = true) :
      ChipStep p (.wrVec k v) k c { c with vector := evenByte v }
  | ctrl (k : Nat) (i : ChanIx) (w : ControlWord) (c : Chip) (h : c.inited = true)
      (hd : (c.chan i).dropsTriggerWait p i w = false) :
      ChipStep p (.wrCtrl k i w) k c (c.updCh i (Channel.writeCtrl p w))
  | tc (k : Nat) (i : ChanIx) (v : Byte) (c : Chip) (h : c.inited = true) :
      ChipStep p (.wrTc k i v) k c (c.updCh i (Channel.writeTc p v))
  | trg (k : Nat) (i : ChanIx) (l : Level) (c : Chip) :
      ChipStep p (.trg k i l) k c (c.updCh i (Channel.trg p l))
  | tick (k : Nat) (c : Chip) : ChipStep p (.tick k) k c (c.mapCh (Channel.tick p))
  | reset (k : Nat) (c : Chip) : ChipStep p (.reset k) k c c.hwReset
  | ack (o : Instr) (k : Nat) (i : ChanIx) (c : Chip)
      (ho : o = .ack k ∨ ∃ cs, o = .chainAck cs ∧ k ∈ cs)
      (hp : c.localStatus p = .pending) (hi : c.ackChannel p = some i) :
      ChipStep p o k c (c.updCh i fun x => { x with intState := .asserted })
  | reti (o : Instr) (k : Nat) (i : ChanIx) (c : Chip)
      (ho : o = .reti k ∨ ∃ cs, o = .chainReti cs ∧ k ∈ cs)
      (hi : c.serviceChannel = some i) :
      ChipStep p o k c (c.updCh i fun x => { x with intState := .none })

theorem onChip_completes {o : Instr} {k : Nat} {f : Chip → Chip} {r : Chip → Result} {s t : State}
    (h : onChip k (completes f r) s = .next t) (hs : ∀ c, ChipStep s.params o k c (f c)) :
    ∃ c d r, s.chips[k]? = some c ∧ t = s.put k d r ∧ ChipStep s.params o k c d := by
  obtain ⟨c, d, r', hc, hf, rfl⟩ := onChip_next h
  cases hf
  exact ⟨c, _, _, hc, rfl, hs c⟩

theorem onChip_acknowledge {o : Instr} {k : Nat} {s t : State}
    (h : onChip k (Chip.acknowledge s.params) s = .next t)
    (ho : o = .ack k ∨ ∃ cs, o = .chainAck cs ∧ k ∈ cs) :
    ∃ c d r, s.chips[k]? = some c ∧ t = s.put k d r ∧ ChipStep s.params o k c d := by
  obtain ⟨c, d, r, hc, hf, rfl⟩ := onChip_next h
  obtain ⟨i, hp, hi, rfl, rfl⟩ := Chip.acknowledge_next hf
  exact ⟨c, _, _, hc, rfl, .ack o k i c ho hp hi⟩

theorem onChip_returnFromInterrupt {o : Instr} {k : Nat} {s t : State}
    (h : onChip k Chip.returnFromInterrupt s = .next t)
    (ho : o = .reti k ∨ ∃ cs, o = .chainReti cs ∧ k ∈ cs) :
    ∃ c d r, s.chips[k]? = some c ∧ t = s.put k d r ∧ ChipStep s.params o k c d := by
  obtain ⟨c, d, r, hc, hf, rfl⟩ := onChip_next h
  rcases c.returnFromInterrupt_cases with ⟨i, hi, he⟩ | ⟨-, he⟩ <;> rw [he] at hf <;> cases hf
  · exact ⟨c, _, _, hc, rfl, .reti o k i c ho hi⟩
  · exact ⟨c, _, _, hc, rfl, .same o k c⟩

/-- Every operation that completes writes one chip that it names, in one of the ways of `ChipStep`, or only answers. -/
theorem exec_next {o : Instr} {s t : State} (h : exec o s = .next t) :
    (∃ r, t = s.answer r) ∨
    ∃ k ∈ chipOperands o, ∃ c d r, s.chips[k]? = some c ∧ t = s.put k d r ∧ ChipStep s.params o k c d := by
  cases o with
  | wrVec k v =>
    right; refine ⟨k, by simp [chipOperands], ?_⟩
    obtain ⟨c, d, r, hc, hf, rfl⟩ := onChip_next (show onChip k _ s = .next t from h)
    obtain ⟨hi, hf⟩ := hostWrite_next hf
    cases hf
    exact ⟨c, _, _, hc, rfl, .vec k v c hi⟩
  | wrCtrl k i w =>
    right; refine ⟨k, by simp [chipOperands], ?_⟩
    obtain ⟨c, d, r, hc, hf, rfl⟩ := onChip_next (show onChip k _ s = .next t from h)
    obtain ⟨hi, hf⟩ := hostWrite_next hf
    split at hf
    · cases hf
    · rename_i hd
      cases hf
      exact ⟨c, _, _, hc, rfl, .ctrl k i w c hi (by simpa using hd)⟩
  | wrTc k i v =>
    right; refine ⟨k, by simp [chipOperands], ?_⟩
    obtain ⟨c, d, r, hc, hf, rfl⟩ := onChip_next (show onChip k _ s = .next t from h)
    obtain ⟨hi, hf⟩ := hostWrite_next hf
    cases hf
    exact ⟨c, _, _, hc, rfl, .tc k i v c hi⟩
  | wrIgn k i x =>
    right; refine ⟨k, by simp [chipOperands], ?_⟩
    obtain ⟨c, d, r, hc, hf, rfl⟩ := onChip_next (show onChip k _ s = .next t from h)
    obtain ⟨-, hf⟩ := hostWrite_next hf
    cases hf
    exact ⟨c, _, _, hc, rfl, .same _ k c⟩
  | rd k i =>
    right; exact ⟨k, by simp [chipOperands], onChip_completes (show onChip k _ s = _ from h) (.same _ k)⟩
  | trg k i l =>
    right; exact ⟨k, by simp [chipOperands],
      onChip_completes (show onChip k _ s = _ from h) (.trg k i l)⟩
  | tick k =>
    right; exact ⟨k, by simp [chipOperands], onChip_completes (show onChip k _ s = _ from h) (.tick k)⟩
  | reset k =>
    right; exact ⟨k, by simp [chipOperands], onChip_completes (show onChip k _ s = _ from h) (.reset k)⟩
  | status k iei =>
    right; exact ⟨k, by simp [chipOperands], onChip_completes (show onChip k _ s = _ from h) (.same _ k)⟩
  | ack k =>
    right; exact ⟨k, by simp [chipOperands], onChip_acknowledge h (.inl rfl)⟩
  | reti k =>
    right; exact ⟨k, by simp [chipOperands], onChip_returnFromInterrupt h (.inl rfl)⟩
  | chainIrq cs =>
    rw [exec_chainIrq] at h
    obtain ⟨ms, -, h⟩ := onChain_next h
    cases h
    exact .inl ⟨_, rfl⟩
  | chainAck cs =>
    rw [exec_chainAck] at h
    obtain ⟨ms, hm, h⟩ := onChain_next h
    cases hk : chainRequester s.params ms with
    | none => simp [hk] at h
    | some k =>
      simp only [hk] at h
      obtain ⟨c, hc, -⟩ := chainRequester_mem hk
      have hk' := (State.mem_members hm hc).1
      right; exact ⟨k, hk', onChip_acknowledge h (.inr ⟨cs, rfl, hk'⟩)⟩
  | chainReti cs =>
    rw [exec_chainReti] at h
    obtain ⟨ms, hm, h⟩ := onChain_next h
    cases hk : chainInService ms with
    | none => simp only [hk] at h; cases h; exact .inl ⟨_, rfl⟩
    | some k =>
      simp only [hk] at h
      obtain ⟨c, hc, -⟩ := chainInService_mem hk
      have hk' := (State.mem_members hm hc).1
      right; exact ⟨k, hk', onChip_returnFromInterrupt h (.inr ⟨cs, rfl, hk'⟩)⟩

/-- The same, seen at one chip: what it was and what it is stand in a `ChipStep`. -/
theorem exec_chip {o : Instr} {s t : State} (h : exec o s = .next t) {k : Nat} {c d : Chip}
    (hc : s.chips[k]? = some c) (hd : t.chips[k]? = some d) : ChipStep s.params o k c d := by
  rcases exec_next h with ⟨r, rfl⟩ | ⟨j, -, c', d', r, hc', rfl, hs⟩
  · simp only [State.answer_chips, hc, Option.some.injEq] at hd
    subst hd; exact .same o k c
  · rw [State.put_getElem? s j c' d' r k hc'] at hd
    by_cases hj : k = j
    · subst hj
      rw [hc] at hc'; cases hc'
      simp only [if_true, Option.some.injEq] at hd
      subst hd; exact hs
    · simp only [hj, if_false, hc, Option.some.injEq] at hd
      subst hd; exact .same o k c

/-- A step is idle or one operation. -/
theorem step_cases (s : State) :
    (s.requests = [] ∧ step s = .next s) ∨
    ∃ r rest, s.requests = r :: rest ∧
      step s = exec (decode (s.awaits r) r s.params) { s with requests := rest } := by
  unfold step
  cases s.requests with
  | nil => exact .inl ⟨rfl, rfl⟩
  | cons r rest => exact .inr ⟨r, rest, rfl, rfl⟩

end Sys2Proof.Machine
end

