-- ==== Sys2Proof/Tests/Slice0.lean ====
section
/-! SUPPORT. Tests whose expected values stand in spec/95_test_vectors.md (or are read off spec/30_encoding.md by hand), and a witness for the hypotheses of each obligation that has some. -/

namespace Sys2Proof.Tests

open Sys2Proof Sys2Proof.Machine

/-! ### Small states -/

/-- A channel that awaits nothing, its output at 0. -/
def chn (i : ChanIx) (mode : Byte) (tc down psc : Nat) (run : RunState) (ext : Level)
    (st : IntState) : Channel :=
  { index := i, mode := mode, awaitTc := false, tc := tc, down := down, psc := psc, run := run,
    extLevel := ext, zc := false, intState := st }

/-- A chip that has been reset, its vector `v`. -/
def freshChip (v : Byte) : Chip :=
  { inited := true, vector := v,
    ch := #v[Channel.afterReset {} 0, Channel.afterReset {} 1, Channel.afterReset {} 2,
             Channel.afterReset {} 3] }

/-- The chip with one channel put in its place. -/
def Chip.withCh (k : Chip) (c : Channel) : Chip := k.updCh c.index fun _ => c

/-- A fresh chip, vector `0x20`, with one channel put in its place. -/
def chipOf (c : Channel) : Chip := (freshChip 0x20#8).updCh c.index fun _ => c

/-- A machine of these chips at the default parameters, nothing outstanding. -/
def mach (cs : List Chip) : State := { params := {}, chips := cs, requests := [], result := .nothing }

/-- The same with a list of requests. -/
def machReq (cs : List Chip) (rs : List Request) : State :=
  { params := {}, chips := cs, requests := rs, result := .nothing }

/-- A chip with channel 1 pending and enabled (95, 2.8). -/
def pendingChip : Chip := chipOf (chn 1 0xD7#8 1 1 0 .armed true .pending)

/-- A chip with channel 1 in service. -/
def serviceChip : Chip := chipOf (chn 1 0xD7#8 1 1 0 .armed true .asserted)

/-- Parameters that differ from the defaults in every field. -/
def otherParams : Params :=
  { cwLayout := { Config.cwLayout with intEn := ⟨6, true⟩, counter := ⟨7, false⟩ }
    trigChannels := [0, 1], extLevelPowerOn := true, zcPowerOn := true, countPowerOn := 1
    ieiHead := false }

/-- Channel `i` of chip `k` after an operation. -/
def chanAfter (o : Instr) (s : State) (k : Nat) (i : ChanIx) : Option Channel :=
  match exec o s with
  | .next t => t.chips[k]?.map fun c => c.chan i
  | _ => none

def resultAfter (o : Instr) (s : State) : Option Result :=
  match exec o s with
  | .next t => some t.result
  | _ => none

def vectorAfter (o : Instr) (s : State) (k : Nat) : Option Byte :=
  match exec o s with
  | .next t => t.chips[k]?.map Chip.vector
  | _ => none

def faultOf (o : Instr) (s : State) : Option Fault :=
  match exec o s with
  | .fault f => some f
  | _ => none

def refusalOf (o : Instr) (s : State) : Option Refusal :=
  match exec o s with
  | .refused r => some r
  | _ => none

/-! ### Well-formedness: each check refuses an ill-formed term (R61, R140) -/

theorem test_wf_ignored_slot0 : (Instr.wrIgn 0 0 0x20#7).wellFormed = false := by decide
theorem test_wf_ignored_slot3 : (Instr.wrIgn 0 3 0x20#7).wellFormed = true := by decide
theorem test_wf_chainIrq_twice : (Instr.chainIrq [1, 0, 1]).wellFormed = false := by decide
theorem test_wf_chainAck_twice : (Instr.chainAck [0, 0]).wellFormed = false := by decide
theorem test_wf_chainReti_twice : (Instr.chainReti [2, 1, 2]).wellFormed = false := by decide

/-! ### Decoding: words written out bit by bit from R62 to R64, slots and `await_tc` of R61 -/

theorem test_decode_wrVec : decode false (.wr 1 0 0b00000100#8) = .wrVec 1 0b0000010#7 := by decide
theorem test_decode_wrCtrl : decode false (.wr 0 2 0b10100111#8) = .wrCtrl 0 2
    { intEn := true, counter := false, prescale256 := true, rising := false, trigger := false,
      follows := true, swReset := true } := by decide
theorem test_decode_wrCtrl_other_bits : decode false (.wr 0 0 0b01011001#8) = .wrCtrl 0 0
    { intEn := false, counter := true, prescale256 := false, rising := true, trigger := true,
      follows := false, swReset := false } := by decide
theorem test_decode_wrTc : decode true (.wr 0 0 0b00000100#8) = .wrTc 0 0 0x04#8 := by decide
theorem test_decode_wrTc_odd : decode true (.wr 0 2 0b00000101#8) = .wrTc 0 2 0x05#8 := by decide
theorem test_decode_wrIgn : decode false (.wr 0 1 0b00000100#8) = .wrIgn 0 1 0b0000010#7 := by
  decide
theorem test_decode_rd : decode true (.rd 0 3) = .rd 0 3 := by decide
theorem test_decode_trg : decode false (.trg 0 1 true) = .trg 0 1 true := by decide
theorem test_decode_tick : decode false (.tick 2) = .tick 2 := by decide
theorem test_decode_reset : decode false (.reset 0) = .reset 0 := by decide
theorem test_decode_status : decode false (.status 0 false) = .status 0 false := by decide
theorem test_decode_ack : decode false (.ack 1) = .ack 1 := by decide
theorem test_decode_reti : decode false (.reti 1) = .reti 1 := by decide
theorem test_decode_chainIrq : decode false (.chainIrq [0, 1]) = .chainIrq [0, 1] := by decide
theorem test_decode_chainAck : decode false (.chainAck [1, 0]) = .chainAck [1, 0] := by decide
theorem test_decode_chainReti : decode false (.chainReti [2]) = .chainReti [2] := by decide
theorem test_table_word_vec : decodeTableWord 8 0x00 = some (.wrVec 0 0#7) := by decide
theorem test_table_word_long : decodeTableWord 16 0x01 = none := by decide

/-! ### One step each -/

/-- 95, 2.2 #4: the prescaler bit changes, so `psc` is cleared. -/
theorem test_wrCtrl_prescaler_changed :
    chanAfter (decode false (.wr 0 2 0x21#8)) (mach [chipOf (chn 2 0x07#8 2 2 10 .armed false .none)])
      0 2 = some (chn 2 0x21#8 2 2 0 .armed false .none) := by decide

/-- 95, 2.2 #5: bits 6 and 5 do not change, so `psc` is kept. -/
theorem test_wrCtrl_prescaler_kept :
    chanAfter (decode false (.wr 0 2 0x81#8)) (mach [chipOf (chn 2 0x07#8 2 2 10 .armed false .none)])
      0 2 = some (chn 2 0x81#8 2 2 10 .armed false .none) := by decide

/-- 95, 2.12 #8 and #9. -/
theorem test_wrCtrl_trigger_wait :
    refusalOf (decode false (.wr 0 0 0x11#8)) (mach [chipOf (chn 0 0x1F#8 2 2 0 .waitTrig false .none)])
      = some .ctrlDropsTriggerWait ∧
    chanAfter (decode false (.wr 0 0 0x19#8)) (mach [chipOf (chn 0 0x1F#8 2 2 0 .waitTrig false .none)])
      0 0 = some (chn 0 0x19#8 2 2 0 .waitTrig false .none) := by decide

/-- 95, 2.3 #1: a written 0 is 256. -/
theorem test_wrTc_zero :
    chanAfter (.wrTc 0 3 0x00#8) (mach [chipOf (chn 3 0x47#8 7 7 0 .stopped false .none)]) 0 3 =
      some (chn 3 0x47#8 256 256 0 .armed false .none) := by decide

/-- 95, 2.3 #5 and #6: the trigger bit makes channel 0 wait and not channel 1. -/
theorem test_wrTc_trigger :
    chanAfter (.wrTc 0 0 0x02#8) (mach [chipOf (chn 0 0x1F#8 256 256 0 .stopped false .none)]) 0 0 =
      some (chn 0 0x1F#8 2 2 0 .waitTrig false .none) ∧
    chanAfter (.wrTc 0 1 0x02#8) (mach [chipOf (chn 1 0x1F#8 256 256 0 .stopped false .none)]) 0 1 =
      some (chn 1 0x1F#8 2 2 0 .armed false .none) := by decide

/-- 95, 2.1 #2: the vector cannot be written through slot 1. -/
theorem test_wrIgn_vector :
    vectorAfter (decode false (.wr 0 1 0x04#8)) (mach [freshChip 0x5A#8]) 0 = some 0x5A#8 := by
  decide

/-- 95, 2.1 #1. -/
theorem test_wrVec : vectorAfter (decode false (.wr 0 0 0x04#8)) (mach [freshChip 0x5A#8]) 0 =
    some 0x04#8 := by decide

/-- 95, 2.3 #1 and #3: 256 reads as 0, 255 as itself. -/
theorem test_rd_256_255 :
    resultAfter (.rd 0 3) (mach [chipOf (chn 3 0x47#8 256 256 0 .armed false .none)]) =
      some (.byte 0x00#8) ∧
    resultAfter (.rd 0 3) (mach [chipOf (chn 3 0x47#8 256 255 0 .armed false .none)]) =
      some (.byte 0xFF#8) := by decide

/-- 95, 2.5 #4: the second falling edge is an expiry. -/
theorem test_trg_expiry :
    chanAfter (.trg 0 1 false) (mach [chipOf (chn 1 0x47#8 2 1 0 .armed true .none)]) 0 1 =
      some { chn 1 0x47#8 2 2 0 .armed false .none with zc := true } := by decide

/-- 95, 2.7 #2: the starting edge does not decrement. -/
theorem test_trg_start :
    chanAfter (.trg 0 0 true) (mach [chipOf (chn 0 0x1F#8 2 2 0 .waitTrig false .none)]) 0 0 =
      some (chn 0 0x1F#8 2 2 0 .armed true .none) := by decide

/-- 95, 2.6 #2: the 48th tick. -/
theorem test_tick_expiry :
    chanAfter (.tick 0) (mach [chipOf (chn 2 0x87#8 3 1 15 .armed false .none)]) 0 2 =
      some { chn 2 0x87#8 3 3 0 .armed false .pending with zc := true } := by decide

/-- 95, 2.6 #4: with prescaler 256 the 16th tick is no decrement. -/
theorem test_tick_prescaler_256 :
    chanAfter (.tick 0) (mach [chipOf (chn 3 0x27#8 2 2 15 .armed false .none)]) 0 3 =
      some (chn 3 0x27#8 2 2 16 .armed false .none) := by decide

/-- 95, 2.11 #1. -/
theorem test_reset :
    chanAfter (.reset 0) (mach [chipOf { chn 1 0xD7#8 9 9 0 .armed true .pending with
      zc := true, awaitTc := true }]) 0 1 = some (chn 1 0x03#8 9 9 0 .stopped true .none) ∧
    vectorAfter (.reset 0) (mach [freshChip 0x40#8]) 0 = some 0x40#8 := by decide

/-- 95, 2.9 #1. -/
theorem test_status :
    resultAfter (.status 0 true) (mach [pendingChip]) = some (.status .pending) ∧
    resultAfter (.status 0 false) (mach [pendingChip]) = some (.status .none) := by decide

/-- 95, 2.9 #2: the lowest index wins; 2.9's last table: addition modulo 256. -/
theorem test_ack :
    resultAfter (.ack 0) (mach [Chip.withCh (Chip.withCh (freshChip 0x40#8)
      (chn 1 0xD7#8 1 1 0 .armed true .pending)) (chn 3 0xD7#8 1 1 0 .armed true .pending)]) =
      some (.byte 0x42#8) ∧
    resultAfter (.ack 0) (mach [Chip.withCh (freshChip 0xFE#8)
      (chn 3 0xD7#8 1 1 0 .armed true .pending)]) = some (.byte 0x04#8) := by decide

/-- 95, 2.12 #3 and 2.9 #3. -/
theorem test_ack_faults :
    faultOf (.ack 0) (mach [freshChip 0x40#8]) = some .ackNotPending ∧
    faultOf (.ack 0) (mach [serviceChip]) = some .ackNotPending := by decide

/-- 95, 2.9 #4 and #7. -/
theorem test_reti :
    resultAfter (.reti 0) (mach [serviceChip]) = some (.truth true) ∧
    chanAfter (.reti 0) (mach [serviceChip]) 0 1 =
      some (chn 1 0xD7#8 1 1 0 .armed true .none) ∧
    resultAfter (.reti 0) (mach [pendingChip]) = some (.truth false) := by decide

/-- R141's examples, chip 0 = A, chip 1 = B. -/
theorem test_chainIrq :
    resultAfter (.chainIrq [0, 1]) (mach [freshChip 0x10#8, pendingChip]) = some (.truth true) ∧
    resultAfter (.chainIrq [0, 1]) (mach [serviceChip, pendingChip]) = some (.truth false) ∧
    resultAfter (.chainIrq [0, 1]) (mach [pendingChip, serviceChip]) = some (.truth true) := by
  decide

/-- R142's example with both chips pending; 95, 2.12 #5. -/
theorem test_chainAck :
    resultAfter (.chainAck [0, 1]) (mach [Chip.withCh (freshChip 0x10#8)
      (chn 1 0xD7#8 1 1 0 .armed true .pending), pendingChip]) = some (.byte 0x12#8) ∧
    faultOf (.chainAck [0, 1]) (mach [serviceChip, pendingChip]) = some .chainAckNoRequest := by
  decide

/-- 95, 3.3 lines 19 and 21: both in service, the first in chain order is cleared; an empty chain (2.10). -/
theorem test_chainReti :
    chanAfter (.chainReti [1, 0]) (mach [serviceChip, serviceChip]) 1 1 =
      some (chn 1 0xD7#8 1 1 0 .armed true .none) ∧
    chanAfter (.chainReti [1, 0]) (mach [serviceChip, serviceChip]) 0 1 =
      some (chn 1 0xD7#8 1 1 0 .armed true .asserted) ∧
    resultAfter (.chainReti []) (mach []) = some (.truth false) := by decide

/-- 95, 2.12 #1: a write before the first `RESET`. -/
theorem test_write_before_reset :
    faultOf (decode false (.wr 0 0 0x04#8)) (State.powerOn 1) = some .writeBeforeInit := by decide

/-- An operand that names no chip (the model's own refusal). -/
theorem test_no_such_chip : refusalOf (.tick 3) State.reset = some .noSuchChip := by decide

/-- The first table item after reset is run by the next step. -/
theorem test_step_after_reset :
    (match step (State.reset.withFetchWord 8 0x01) with
      | .next t => t.chips[0]?.map fun c => (c.chan 0).mode
      | _ => none) = some 0x01#8 := by decide

/-- R7: with other `TRIG_CHANNELS` the trigger bit makes channel 1 wait. -/
theorem test_trigger_channels :
    chanAfter (.wrTc 0 1 0x02#8)
      { mach [chipOf (chn 1 0x1F#8 256 256 0 .stopped false .none)] with
        params := { trigChannels := [0, 1] } } 0 1 =
      some (chn 1 0x1F#8 2 2 0 .waitTrig false .none) := by decide

/-- R7: with another layout (mode and enable swapped, the mode active low) the same byte is another word. -/
theorem test_other_layout :
    otherParams.cwLayout.wf = true ∧
    decode false (.wr 0 1 0b11000101#8) otherParams =
      .wrCtrl 0 1 { intEn := true, counter := false, prescale256 := false, rising := false,
                    trigger := false, follows := true, swReset := false } ∧
    encode (decode false (.wr 0 1 0b11000101#8) otherParams) otherParams =
      .wr 0 1 0b11000101#8 := by decide

/-- Two fields in one bit, and one in the marker's: no layout of R62. -/
theorem test_wf_layout :
    ({ Config.cwLayout with counter := ⟨7, true⟩ } : CwLayout).wf = false ∧
    ({ Config.cwLayout with swReset := ⟨0, true⟩ } : CwLayout).wf = false ∧
    ({ countPowerOn := 257 } : Params).wf = false ∧ ({ countPowerOn := 0 } : Params).wf = false := by
  decide

/-! ### Witnesses: states and operands that meet the hypotheses of the obligations -/

/-- Channel 1 counting rising edges, interrupt enabled. -/
def ctr (down : Nat) : Chip := chipOf (chn 1 0xD7#8 5 down 0 .armed false .none)

/-- Channel 2 counting ticks by 16, interrupt enabled, constant `T`. -/
def tmr (T down psc : Nat) : Chip := chipOf (chn 2 0x87#8 T down psc .armed false .none)

/-- Channel 3 counting ticks by 256. -/
def tmrLong (psc : Nat) : Chip := chipOf (chn 3 0x27#8 2 1 psc .armed false .none)

/-- Channel 0 waiting for a rising edge. -/
def waiting : Chip := chipOf (chn 0 0x1F#8 2 2 0 .waitTrig false .none)

/-- Channel 0 awaiting its constant. -/
def awaiting : Chip := chipOf { chn 0 0x07#8 256 256 0 .stopped false .none with awaitTc := true }

/-- A chip as at power-on, its vector 0. -/
def unreset : Chip :=
  { inited := false, vector := 0x00#8,
    ch := #v[Channel.powerOn {} 0, Channel.powerOn {} 1, Channel.powerOn {} 2, Channel.powerOn {} 3] }

/-- The chip number of `PowerOnState`, with a draw that is no default. -/
theorem witness_PowerOnState : 0 < 1 ∧
    (State.powerOn 1 otherParams fun _ => 0xAB#8).chips.map Chip.vector = [0xAB#8] := by decide

theorem witness_ResetEffect : (mach [ctr 5]).chips[0]? = some (ctr 5) := by decide

/-- A plain word to a running channel, a word that a waiting channel takes without the reset bit, and (second clause) one that it refuses. -/
theorem witness_ControlWordEffect :
    ((ctr 5).inited = true ∧ ((ctr 5).chan 1).run ≠ .waitTrig) ∧
    (waiting.inited = true ∧ (waiting.chan 0).run = .waitTrig ∧
      (ControlWord.ofByte 0x09#8).swReset = false ∧ (ControlWord.ofByte 0x09#8).counter = false ∧
      (ControlWord.ofByte 0x09#8).trigger = true ∧ (0 : ChanIx) ∈ (mach [waiting]).params.trigChannels) ∧
    ((ControlWord.ofByte 0x41#8).swReset = false ∧
      ¬ ((ControlWord.ofByte 0x41#8).counter = false ∧ (ControlWord.ofByte 0x41#8).trigger = true ∧
        (0 : ChanIx) ∈ (mach [waiting]).params.trigChannels)) := by decide

/-- A state and word for each clause: 0x41 is refused, 0x09 is taken. -/
theorem witness_ControlWordRefusedExactly :
    (mach [waiting]).chips[0]? = some waiting ∧ waiting.inited = true ∧
    (waiting.chan 0).run = .waitTrig ∧ (mach [waiting]).params.cwLayout.wf = true ∧
    refusalOf (.wrCtrl 0 0 (ControlWord.ofByte 0x41#8)) (mach [waiting]) =
      some .ctrlDropsTriggerWait ∧
    refusalOf (.wrCtrl 0 0 (ControlWord.ofByte 0x09#8)) (mach [waiting]) = none := by decide

theorem witness_TimeConstantEffect :
    (mach [awaiting]).chips[0]? = some awaiting ∧ awaiting.inited = true ∧
    (awaiting.chan 0).index = 0 := by decide

theorem witness_IgnoredWriteEffect :
    (mach [ctr 5]).chips[0]? = some (ctr 5) ∧ (ctr 5).inited = true ∧ (3 : ChanIx) ≠ 0 := by decide

theorem witness_VectorWriteEffect :
    (mach [ctr 5]).chips[0]? = some (ctr 5) ∧ (ctr 5).inited = true ∧
    (0xFE#8).toNat = 2 * (0x7F#7).toNat := by decide

theorem witness_ReadEffect : (mach [unreset]).chips[0]? = some unreset := by decide

theorem witness_ObservationsChangeNothing :
    (resultAfter (.rd 0 1) (mach [ctr 5])).isSome = true ∧
    (resultAfter (.status 0 true) (mach [ctr 5])).isSome = true ∧
    (resultAfter (.chainIrq [0]) (mach [ctr 5])).isSome = true := by decide

/-- One line for each clause of `InputLevelEffect`. -/
theorem witness_InputLevelEffect :
    false = ((ctr 5).chan 1).extLevel ∧
    (true ≠ ((tmr 3 3 0).chan 2).extLevel ∧ true ≠ ((tmr 3 3 0).chan 2).rising {}) ∧
    (true ≠ (waiting.chan 0).extLevel ∧ true = (waiting.chan 0).rising {} ∧
      (waiting.chan 0).run = .waitTrig) ∧
    (true ≠ ((ctr 2).chan 1).extLevel ∧ true = ((ctr 2).chan 1).rising {} ∧
      ((ctr 2).chan 1).run = .armed ∧ ((ctr 2).chan 1).counter {} = true ∧
      2 ≤ ((ctr 2).chan 1).down) ∧
    (true ≠ ((ctr 1).chan 1).extLevel ∧ true = ((ctr 1).chan 1).rising {} ∧
      ((ctr 1).chan 1).run = .armed ∧ ((ctr 1).chan 1).counter {} = true ∧
      ((ctr 1).chan 1).down = 1) ∧
    (let c := chipOf (chn 1 0x57#8 5 5 0 .stopped false .none)
     true ≠ (c.chan 1).extLevel ∧ true = (c.chan 1).rising {} ∧ (c.chan 1).run ≠ .waitTrig ∧
      ¬ ((c.chan 1).run = .armed ∧ (c.chan 1).counter {} = true)) := by decide

/-- The first clauses, and the last one on a stopped counter-mode channel. -/
theorem witness_StoppedChannelDoesNotCount :
    ((mach [freshChip 0#8]).chips[0]? = some (freshChip 0#8) ∧
      ((freshChip 0#8).chan 1).run = .stopped) ∧
    (let c := chipOf (chn 1 0x57#8 5 5 0 .stopped false .none)
     (c.chan 1).run = .stopped ∧ c.inited = true ∧ (c.chan 1).counter {} = true ∧
      true ≠ (c.chan 1).extLevel ∧ true = (c.chan 1).rising {} ∧
      (chanAfter (.wrTc 0 1 0x02#8) (mach [c]) 0 1).map Channel.down = some 2) := by decide

/-- One line for each clause of `TickEffect`, with both prescalers. -/
theorem witness_TickEffect :
    ¬ (((ctr 5).chan 1).counter {} = false ∧ ((ctr 5).chan 1).run = .armed) ∧
    (((tmr 3 1 14).chan 2).counter {} = false ∧ ((tmr 3 1 14).chan 2).run = .armed ∧
      ((tmr 3 1 14).chan 2).psc + 1 ≠ 16 ∧ (((tmr 3 1 14).chan 2).cw {}).prescale256 = false) ∧
    (((tmr 3 2 15).chan 2).counter {} = false ∧ ((tmr 3 2 15).chan 2).run = .armed ∧
      ((tmr 3 2 15).chan 2).psc + 1 = 16 ∧ 2 ≤ ((tmr 3 2 15).chan 2).down) ∧
    (((tmrLong 255).chan 3).counter {} = false ∧ ((tmrLong 255).chan 3).run = .armed ∧
      (((tmrLong 255).chan 3).cw {}).prescale256 = true ∧ ((tmrLong 255).chan 3).psc + 1 = 256 ∧
      ((tmrLong 255).chan 3).down = 1) := by decide

/-- Both drivers, and a channel that is already in service. -/
theorem witness_ExpiryRequestsAtMostOnce :
    ((tmr 3 1 15).chan 2).expiresOnTick {} = true ∧ ((ctr 1).chan 1).expiresOnEdge {} true = true ∧
    ((chipOf (chn 1 0xD7#8 1 1 0 .armed false .asserted)).chan 1).expiresOnEdge {} true = true := by
  decide

/-- The smallest and the largest constant. -/
theorem witness_TimerLaw :
    (((tmr 1 1 0).chan 2).counter {} = false ∧ ((tmr 1 1 0).chan 2).run = .armed ∧
      ((tmr 1 1 0).chan 2).psc = 0 ∧ ((tmr 1 1 0).chan 2).tc = 1 ∧
      ((tmr 1 1 0).chan 2).down = 1 ∧ 16 = if (((tmr 1 1 0).chan 2).cw {}).prescale256 = true then 256 else 16) ∧
    (((tmr 256 256 0).chan 2).tc = 256 ∧ ((tmr 256 256 0).chan 2).down = 256) := by decide

theorem witness_CounterLaw :
    ((ctr 5).chan 1).counter {} = true ∧ ((ctr 5).chan 1).run = .armed ∧ ((ctr 5).chan 1).tc = 5 ∧
    ((ctr 5).chan 1).down = 5 ∧ 1 ≤ 5 ∧
    ((ctr 5).chan 1).extLevel = !((ctr 5).chan 1).rising {} := by decide

/-- First part: a waiting channel; second part: a `WR.TC` that makes one wait. -/
theorem witness_StartOnTrigger :
    ((waiting.chan 0).run = .waitTrig ∧ (waiting.chan 0).extLevel = !(waiting.chan 0).rising {}) ∧
    (chanAfter (.wrTc 0 0 0x02#8) (mach [chipOf (chn 0 0x1F#8 2 2 0 .armed false .none)]) 0 0).map
      Channel.run = some .waitTrig := by decide

theorem witness_StatusEffect : (mach [pendingChip]).chips[0]? = some pendingChip := by decide

theorem witness_AcknowledgeEffect :
    (mach [pendingChip]).chips[0]? = some pendingChip ∧ pendingChip.localStatus {} = .pending ∧
    serviceChip.localStatus {} ≠ .pending := by
  decide

theorem witness_ReturnEffect :
    (∀ i : ChanIx, (pendingChip.chan i).intState ≠ .asserted) ∧
    ((serviceChip.chan 1).intState = .asserted ∧
      ∀ j : ChanIx, (serviceChip.chan j).intState = .asserted → 1 ≤ j) := by decide

theorem witness_DisablingIsNotClearing :
    pendingChip.inited = true ∧ (pendingChip.chan 1).run ≠ .waitTrig ∧
    (pendingChip.chan 1).intState = .pending ∧
    (∀ j : ChanIx, j ≠ 1 → (pendingChip.chan j).intState = .none) ∧
    (ControlWord.ofByte 0x41#8).intEn = false ∧ (ControlWord.ofByte 0x41#8).swReset = false ∧
    (mach [pendingChip]).params.cwLayout.wf = true := by
  decide

theorem witness_ChainEnableIn : 2 ≤ [freshChip 0#8, pendingChip].length ∧
    [freshChip 0#8, pendingChip][1]? = some pendingChip := by decide

/-- A chain of two, listed against the chips' own numbering. -/
theorem witness_ChainRequest :
    (mach []).params.ieiHead = true ∧ ChainOf (mach [pendingChip, freshChip 0#8]) [1, 0] [freshChip 0#8, pendingChip] := by decide

/-- Both parts of `ChainAcknowledge`: a request behind a NONE chip, and no request. -/
theorem witness_ChainAcknowledge :
    ([1, 0][1]? = some 0 ∧ [freshChip 0#8, pendingChip][1]? = some pendingChip ∧
      pendingChip.localStatus {} = .pending ∧
      ∀ x ∈ [freshChip 0#8, pendingChip].take 1, x.localStatus {} = .none) ∧
    (∀ n : Fin 2, ∀ c, [serviceChip, pendingChip][n.val]? = some c → c.localStatus {} = .pending →
      ¬ ∀ x ∈ [serviceChip, pendingChip].take n.val, x.localStatus {} = .none) := by
  refine ⟨by decide, fun n c hc hp => ?_⟩
  match n with
  | 0 => cases hc; revert hp; decide
  | 1 => decide

/-- Both parts of `ChainReturn`. -/
theorem witness_ChainReturn :
    (∀ c ∈ [freshChip 0#8, pendingChip], ∀ i : ChanIx, (c.chan i).intState ≠ .asserted) ∧
    ((∃ i : ChanIx, (serviceChip.chan i).intState = .asserted) ∧
      ∀ x ∈ [freshChip 0#8, serviceChip].take 1, ∀ i : ChanIx, (x.chan i).intState ≠ .asserted) := by
  decide

theorem witness_ReturnEndsLatestService :
    (resultAfter (.chainAck [1, 0]) (mach [serviceChip, pendingChip])).isSome = true := by decide

theorem witness_MiddleChipTransparent :
    (mach [pendingChip, freshChip 0#8]).chips[1]? = some (freshChip 0#8) ∧
    (freshChip 0#8).localStatus {} = .none := by decide

/-- All three parts of `BeforeFirstReset`. -/
theorem witness_BeforeFirstReset :
    (mach [unreset]).chips[0]? = some unreset ∧ unreset.inited = false ∧
    IsWrite 0 (.wrTc 0 2 0x05#8) ∧ unreset.Inv {} ∧ ChainOf (mach [unreset]) [0] [unreset] :=
  ⟨by decide, rfl, rfl, by decide, by decide⟩

theorem witness_AcknowledgeFaults :
    (mach [unreset]).chips[0]? = some unreset ∧ unreset.inited = false ∧ unreset.Inv {} ∧
    (resultAfter (.chainIrq [0]) (mach [serviceChip])).isSome = true := by decide

theorem witness_ExceptionalOutcomesComplete :
    ∀ k ∈ chipOperands (.chainAck [2, 0]), k < State.reset.chips.length := by decide

theorem witness_AbsentChipRefused :
    ∃ k ∈ chipOperands (.chainReti [0, 3]), State.reset.chips.length ≤ k := by decide

/-- At the defaults and at other parameters. -/
theorem witness_DecodeOfEncode : Config.params.cwLayout.wf = true ∧
    otherParams.cwLayout.wf = true ∧ (Instr.wrIgn 0 3 0x20#7).wellFormed = true ∧
    (Instr.chainAck [1, 0]).wellFormed = true := by decide

theorem witness_EncodeOfDecode : otherParams.cwLayout.wf = true ∧ ([1, 0] : List Nat).Nodup := by decide

/-- The slot and bit-0 cases of `WriteDecodeTable`. -/
theorem witness_WriteDecodeTable : otherParams.cwLayout.wf = true ∧ (0x01#8)[0] = true ∧ (0xFE#8)[0] = false ∧
    (3 : ChanIx) ≠ 0 := by decide

/-- The defaults, on a channel whose word has bits of both values. -/
theorem witness_ModeAccessors : (mach [waiting]).params = Config.params ∧
    (waiting.chan 0).mode = 0x1F#8 := by decide

theorem witness_StepRunsDecoded :
    (machReq [awaiting] [.wr 0 0 0x04#8]).requests = .wr 0 0 0x04#8 :: [] ∧
    (machReq [awaiting] []).requests = [] := by decide

theorem witness_FetchWordRuns : State.reset.params = Config.params ∧
    (decodeTableWord 8 0xFF).isSome = true := by decide

theorem witness_ParametersAreFixed :
    (match step { machReq [ctr 5] [.tick 0] with params := otherParams } with
      | .next t => some t.params
      | _ => none) = some otherParams := by decide

/-- One line for each clause of `WriteRouting`. -/
theorem witness_WriteRouting :
    (mach [ctr 5]).params.cwLayout.wf = true ∧
    unreset.inited = false ∧
    ((ctr 5).inited = true ∧ ((ctr 5).chan 0).awaitTc = false ∧ (0x04#8)[0] = false) ∧
    ((ctr 5).inited = true ∧ (3 : ChanIx) ≠ 0 ∧ ((ctr 5).chan 3).awaitTc = false ∧
      (0x40#8)[0] = false) ∧
    (awaiting.inited = true ∧ (awaiting.chan 0).awaitTc = true) ∧
    ((ctr 5).inited = true ∧ ((ctr 5).chan 1).awaitTc = false ∧ (0x57#8)[0] = true) := by decide

theorem witness_NextByteIsConstant :
    ((ctr 5).chan 0).awaitTc = false ∧ (0x07#8)[0] = true ∧
    (ControlWord.ofByte 0x07#8).follows = true ∧
    (match step (machReq [ctr 5] [.wr 0 0 0x07#8, .wr 0 0 0x04#8]) with
      | .next t => t.requests
      | _ => []) = [.wr 0 0 0x04#8] := by decide

theorem witness_InvariantAtStart : otherParams.wf = true := by decide

/-- A state with a channel in service, one waiting and one awaiting, and a step from it. -/
theorem witness_StepKeepsInvariant :
    (mach [serviceChip, waiting, awaiting, unreset]).Inv ∧
    (match step (machReq [serviceChip, waiting, awaiting, unreset] [.reti 0]) with
      | .next t => t.result
      | _ => .nothing) = .truth true := by
  refine ⟨⟨by decide, ?_⟩, by decide⟩
  intro c hc
  simp only [mach, List.mem_cons, List.not_mem_nil, or_false] at hc
  rcases hc with rfl | rfl | rfl | rfl <;> decide

/-- An operation that changes the field, for each clause of `WhoWritesWhat` that a single operation shows. -/
theorem witness_WhoWritesWhat :
    (chanAfter (.wrTc 0 1 0x09#8) (mach [ctr 5]) 0 1).map Channel.tc = some 9 ∧
    (chanAfter (.trg 0 1 true) (mach [ctr 1]) 0 1).map Channel.zc = some true ∧
    vectorAfter (.wrVec 0 0x02#7) (mach [ctr 5]) 0 = some 0x04#8 := by decide

/-- Each of the four transitions of `InterruptStateTransitions` occurs. -/
theorem witness_InterruptStateTransitions :
    (chanAfter (.tick 0) (mach [tmr 3 1 15]) 0 2).map Channel.intState = some .pending ∧
    (chanAfter (.ack 0) (mach [pendingChip]) 0 1).map Channel.intState = some .asserted ∧
    (chanAfter (.chainReti [0]) (mach [serviceChip]) 0 1).map Channel.intState = some .none ∧
    (chanAfter (.reset 0) (mach [pendingChip]) 0 1).map Channel.intState = some .none := by decide

theorem witness_ChipsShareNoState :
    (resultAfter (.chainAck [0, 1]) (mach [pendingChip, serviceChip])).isSome = true := by decide

/-- Two machines that agree on the chip the operation names and differ elsewhere, for each of the three outcomes. -/
theorem witness_OutcomeDependsOnNamedChips :
    (mach [pendingChip, ctr 5]).params = (mach [pendingChip, unreset]).params ∧
    (∀ k ∈ chipOperands (.ack 0),
      (mach [pendingChip, ctr 5]).chips[k]? = (mach [pendingChip, unreset]).chips[k]?) ∧
    (resultAfter (.ack 0) (mach [pendingChip, unreset])).isSome = true ∧
    faultOf (.ack 0) (mach [serviceChip, unreset]) = some .ackNotPending ∧
    refusalOf (.ack 5) (mach [serviceChip, unreset]) = some .noSuchChip := by decide

end Sys2Proof.Tests
end

section
/-! The decode table of a written byte (spec/30_encoding.md R61). -/

namespace Sys2Proof

/-- A write decodes by the routing of its byte alone (R61, R120). -/
theorem decode_wr (p : Params) (k : Nat) (a : ChanIx) (awaitTc : Bool) (b : Byte) :
    decode awaitTc (.wr k a b) p = decodeWrite p k a awaitTc b := rfl

/-- Settles O38: each row is one equation of `decodeWrite`, and the encoder of the decoded operand gives the byte back. -/
theorem writeDecodeTable : Obligations.WriteDecodeTable := by
  intro p k a b hL
  simp only [decode_wr]
  refine ⟨decodeWrite_awaiting p k a b, fun hodd => ?control, fun heven ha => ?vector,
    fun heven ha => ?dropped⟩
  case control =>
    exact ⟨_, decodeWrite_odd p k a b hodd, ControlWord.toByte_ofByte b p.cwLayout hL hodd⟩
  case vector =>
    exact ⟨_, (decodeWrite_even p k a b heven).trans (if_pos ha), evenByte_upperBits b heven⟩
  case dropped =>
    exact ⟨_, (decodeWrite_even p k a b heven).trans (if_neg ha), evenByte_upperBits b heven⟩

end Sys2Proof
end

section
/-! The host's accesses to a channel (spec/40_channel_write_read.md R81, R82, R84 to R86). -/

namespace Sys2Proof.Machine

/-! ### The channel after a write -/

/-- R81 as one record: every field of a channel after a control word. -/
theorem Channel.writeCtrl_eq (p : Params) (w : ControlWord) (c : Channel) :
    c.writeCtrl p w = { c with
      mode := w.toByte p.cwLayout
      awaitTc := w.follows
      psc := if w.swReset = true ∨ w.counter ≠ c.counter p ∨
                w.prescale256 ≠ (c.cw p).prescale256 then 0 else c.psc
      run := if w.swReset = true then .stopped else c.run
      intState := if w.swReset = true then .none else c.intState } := by
  unfold Channel.writeCtrl
  cases w.swReset <;> simp

/-- The start that R82 selects: a trigger-mode timer waits, every other channel is armed. -/
theorem Channel.writeTc_run_eq (p : Params) (v : Byte) (c : Channel) :
    (c.writeTc p v).run =
      if c.counter p = false ∧ (c.cw p).trigger = true ∧ c.index ∈ p.trigChannels
      then .waitTrig else .armed := by
  rw [Channel.writeTc_run, Channel.trig_eq, Channel.cw_eq]
  cases c.counter p <;> simp

/-- R82 as one record: every field of a channel after a time constant. -/
theorem Channel.writeTc_eq (p : Params) (v : Byte) (c : Channel) :
    c.writeTc p v = { c with
      tc := if v = 0#8 then 256 else v.toNat
      awaitTc := false
      down := if v = 0#8 then 256 else v.toNat
      psc := 0
      run := if c.counter p = false ∧ (c.cw p).trigger = true ∧ c.index ∈ p.trigChannels
             then .waitTrig else .armed } := by
  rw [← Channel.writeTc_run_eq p v c]
  rfl

/-- The value of the byte that `RD` returns (R65). -/
theorem Channel.readByte_toNat (c : Channel) : c.readByte.toNat = c.down % 256 :=
  BitVec.toNat_ofNat c.down 8

/-! ### The two answers to a control word -/

section ControlWord

variable {s : State} {k : Nat} {c : Chip} {i : ChanIx} {w : ControlWord}

/-- Outside the situation of R84 a control word completes on a chip that has been reset. -/
theorem wrCtrl_completes (hc : s.chips[k]? = some c) (hi : c.inited = true)
    (hd : (c.chan i).dropsTriggerWait s.params i w = false) :
    ChipCompletes (.wrCtrl k i w) k s (c.updCh i (Channel.writeCtrl s.params w)) .nothing := by
  refine completes_of (exec_wrCtrl k i w s) hc ?_
  rw [hostWrite_inited hi, hd]
  rfl

/-- In the situation of R84 a control word is refused on a chip that has been reset. -/
theorem wrCtrl_refused (hc : s.chips[k]? = some c) (hi : c.inited = true)
    (hd : (c.chan i).dropsTriggerWait s.params i w = true) :
    exec (.wrCtrl k i w) s = .refused .ctrlDropsTriggerWait := by
  rw [exec_wrCtrl, onChip_of _ _ _ _ hc, hostWrite_inited hi, hd]
  rfl

/-- A control word on a chip that has been reset is refused exactly in the situation of R84. -/
theorem wrCtrl_refused_iff (hc : s.chips[k]? = some c) (hi : c.inited = true) :
    exec (.wrCtrl k i w) s = .refused .ctrlDropsTriggerWait ↔
      (c.chan i).dropsTriggerWait s.params i w = true := by
  refine ⟨fun hr => ?_, wrCtrl_refused hc hi⟩
  by_contra hd
  obtain ⟨t, ht, -⟩ := wrCtrl_completes hc hi (Bool.eq_false_iff.2 hd)
  cases hr.symm.trans ht

end ControlWord

/-! ### The statements -/

/-- Settles O6: the refusing test of `WR.CTRL` is the condition of R84, and the channel after a word that is taken is `Channel.writeCtrl_eq`. -/
theorem controlWordEffect : Obligations.ControlWordEffect := by
  rintro s p k c i w rfl hc hi
  rw [← Channel.dropsTriggerWait_iff]
  refine ⟨fun hd => ?taken, fun hr hw hn => ?refused⟩
  case taken =>
    refine ⟨_, wrCtrl_completes hc hi (Bool.eq_false_iff.2 hd), c.updCh_onlyChannel i _, ?_⟩
    rw [Chip.updCh_chan_self, Channel.writeCtrl_eq]
  case refused =>
    exact wrCtrl_refused hc hi ((Channel.dropsTriggerWait_iff ..).2 ⟨hr, hw, hn⟩)

/-- Settles O7: the refusal is `wrCtrl_refused_iff`; a word that keeps the trigger wait leaves `run` alone, and under a legal layout its fields are read back from `mode`. -/
theorem controlWordRefusedExactly : Obligations.ControlWordRefusedExactly := by
  rintro s p k c i w rfl hc hi
  rw [← Channel.dropsTriggerWait_iff]
  refine ⟨wrCtrl_refused_iff hc hi, fun hw hr hm ht hch => ?_⟩
  have hd : (c.chan i).dropsTriggerWait s.params i w = false :=
    Bool.eq_false_iff.2 fun h =>
      let ⟨_, _, hn⟩ := (Channel.dropsTriggerWait_iff ..).1 h
      hn ⟨hm, ht, hch⟩
  refine ⟨_, wrCtrl_completes hc hi hd, ?_⟩
  rw [Chip.updCh_chan_self]
  refine ⟨by simp [hr, hw], Channel.writeCtrl_mode .., fun hL => ?_⟩
  exact congrArg ControlWord.rising (Channel.writeCtrl_cw s.params (c.chan i) w hL)

/-- Settles O8: the channel after a time constant is `Channel.writeTc_eq`, whose trigger test reads the channel's own index. -/
theorem timeConstantEffect : Obligations.TimeConstantEffect := by
  intro s k c i v hc hi hix
  refine ⟨_, completes_write (exec_wrTc k i v s) hc hi, c.updCh_onlyChannel i _, ?_⟩
  simp only [Chip.updCh_chan_self, Channel.writeTc_eq, hix]

/-- Settles O9: the chip operation of `WR.IGN` is the identity. -/
theorem ignoredWriteEffect : Obligations.IgnoredWriteEffect := by
  intro s k c i x hc hi _
  exact completes_write (exec_wrIgn k i x s) hc hi

/-- Settles O11: the chip operation of `RD` is the identity, with no test of `inited`. -/
theorem readEffect : Obligations.ReadEffect := by
  intro s k c i hc
  exact ⟨_, completes_chip (exec_rd k i s) hc, (c.chan i).readByte_toNat⟩

end Sys2Proof.Machine
end

section
/-! The two decrement drivers (spec/41_countdown.md R100 to R106). -/

namespace Sys2Proof.Machine

/-! ### The channel after a decrement, an observed level, a tick -/

section Channel

variable {p : Params} {l : Level} {c : Channel}

/-- R105 and R106 as one record: every field of a channel after an expiry. -/
theorem Channel.expiry_eq (p : Params) (c : Channel) :
    c.expiry p = { c with
      down := c.tc
      zc := !c.zc
      intState := if c.intEn p = true ∧ c.intState = .none then .pending else c.intState } := by
  unfold Channel.expiry
  congr 1
  exact if_congr (by simp) rfl rfl

/-- The decrement that reaches 0 is an expiry, whatever the counter held. -/
theorem Channel.decrement_of_last (h : c.down - 1 = 0) : c.decrement p = c.expiry p := by
  rw [Channel.decrement, if_pos h]
  rfl

/-- A decrement from 2 or more lowers the counter and does nothing else. -/
theorem Channel.decrement_of_two_le (h : 2 ≤ c.down) :
    c.decrement p = { c with down := c.down - 1 } := by
  rw [Channel.decrement, if_neg (by omega)]

/-- A level that is no change is not recorded anew (R100). -/
theorem Channel.trg_of_eq (h : l = c.extLevel) : c.trg p l = c := by
  rw [Channel.trg, if_pos h]

/-- A change away from the polarity is recorded (R101). -/
theorem Channel.trg_of_ne_rising (h : l ≠ c.extLevel) (hr : l ≠ c.rising p) :
    c.trg p l = { c with extLevel := l } := by
  rw [Channel.trg, if_neg h]
  exact if_neg hr

/-- A qualifying edge starts a waiting channel (R110). -/
theorem Channel.trg_of_waitTrig (h : l ≠ c.extLevel) (hr : l = c.rising p)
    (hw : c.run = .waitTrig) :
    c.trg p l = { c with extLevel := l, run := .armed, psc := 0 } := by
  rw [Channel.trg, if_neg h]
  exact (if_pos hr).trans (if_pos hw)

/-- A qualifying edge decrements an armed counter-mode channel (R100). -/
theorem Channel.trg_of_counting (h : l ≠ c.extLevel) (hr : l = c.rising p)
    (ha : c.run = .armed) (hm : c.counter p = true) :
    c.trg p l = { c with extLevel := l }.decrement p := by
  rw [Channel.trg, if_neg h]
  exact (if_pos hr).trans ((if_neg (by simp [ha])).trans (if_pos ⟨hm, ha⟩))

/-- Any change of level is recorded alone on a channel that neither waits nor counts edges (R100, R102). -/
theorem Channel.trg_of_not_counting (h : l ≠ c.extLevel) (hw : c.run ≠ .waitTrig)
    (hc : ¬ (c.run = .armed ∧ c.counter p = true)) :
    c.trg p l = { c with extLevel := l } := by
  by_cases hr : l = c.rising p
  · rw [Channel.trg, if_neg h]
    exact (if_pos hr).trans ((if_neg hw).trans (if_neg fun ⟨hm, ha⟩ => hc ⟨ha, hm⟩))
  · exact Channel.trg_of_ne_rising h hr

/-- On a stopped channel an observed level is recorded and nothing else (R102). -/
theorem Channel.trg_of_stopped (p : Params) (l : Level) (h : c.run = .stopped) :
    c.trg p l = { c with extLevel := l } := by
  by_cases hl : l = c.extLevel
  · rw [Channel.trg_of_eq hl, hl]
  · exact Channel.trg_of_not_counting hl (by simp [h]) (by simp [h])

/-- What it takes for a tick to count on a channel (R103). -/
theorem Channel.ticking_iff (p : Params) (c : Channel) :
    c.ticking p = true ↔ c.counter p = false ∧ c.run = .armed := by
  simp [Channel.ticking]

/-- A tick passes over a channel that is not an armed timer channel (R103). -/
theorem Channel.tick_of_not_ticking (h : ¬ (c.counter p = false ∧ c.run = .armed)) :
    c.tick p = c := by
  rw [Channel.tick, if_neg (mt (Channel.ticking_iff p c).1 h)]

/-- A tick that does not complete the prescaler's period only counts in it (R103). -/
theorem Channel.tick_of_psc_ne (hm : c.counter p = false) (ha : c.run = .armed)
    (hp : c.psc + 1 ≠ c.prescale p) : c.tick p = { c with psc := c.psc + 1 } := by
  rw [Channel.tick, if_pos ((Channel.ticking_iff p c).2 ⟨hm, ha⟩), if_neg hp]

/-- A tick that completes the prescaler's period clears it and decrements (R103). -/
theorem Channel.tick_of_psc_eq (hm : c.counter p = false) (ha : c.run = .armed)
    (hp : c.psc + 1 = c.prescale p) : c.tick p = { c with psc := 0 }.decrement p := by
  rw [Channel.tick, if_pos ((Channel.ticking_iff p c).2 ⟨hm, ha⟩), if_pos hp]

/-! ### Expiry under each driver -/

/-- The channel's next tick is its expiry, with the prescaler cleared. -/
theorem Channel.tick_of_expiresOnTick (h : c.expiresOnTick p = true) :
    c.run = .armed ∧ c.tick p = { c with psc := 0 }.expiry p := by
  simp only [Channel.expiresOnTick, Bool.and_eq_true, beq_iff_eq, Channel.ticking_iff] at h
  obtain ⟨⟨⟨hm, ha⟩, hp⟩, hd⟩ := h
  exact ⟨ha, (Channel.tick_of_psc_eq hm ha hp).trans (Channel.decrement_of_last hd)⟩

/-- The edge to `l` is the channel's expiry, with the level recorded. -/
theorem Channel.trg_of_expiresOnEdge (h : c.expiresOnEdge p l = true) :
    c.run = .armed ∧ c.trg p l = { c with extLevel := l }.expiry p := by
  simp only [Channel.expiresOnEdge, Channel.qualifies, Bool.and_eq_true, bne_iff_ne,
    beq_iff_eq] at h
  obtain ⟨⟨⟨⟨hl, hr⟩, hm⟩, ha⟩, hd⟩ := h
  exact ⟨ha, (Channel.trg_of_counting hl hr ha hm).trans (Channel.decrement_of_last hd)⟩

/-- An expiry leaves a request pending where one was, or where the channel was idle and enabled (R106). -/
theorem Channel.expiry_pending_iff (p : Params) (c : Channel) :
    (c.expiry p).intState = .pending ↔
      c.intState = .pending ∨ (c.intState = .none ∧ c.intEn p = true) := by
  rw [Channel.expiry_eq]
  cases c.intState <;> simp

/-- An expiry neither starts nor ends a service (R106). -/
theorem Channel.expiry_asserted_iff (p : Params) (c : Channel) :
    (c.expiry p).intState = .asserted ↔ c.intState = .asserted := by
  rw [Channel.expiry_eq]
  dsimp only
  by_cases h : c.intEn p = true ∧ c.intState = .none
  · rw [if_pos h, h.2]
    decide
  · rw [if_neg h]

end Channel

/-! ### The statements -/

/-- Settles O13: each clause is the equation of `Channel.trg` for its branch, and a decrement from 1 is an expiry. -/
theorem inputLevelEffect : Obligations.InputLevelEffect := by
  rintro s p k c i l rfl hc
  refine ⟨_, completes_chip (exec_trg k i l s) hc, c.updCh_onlyChannel i _,
    fun hl => Chip.updCh_same i _ c (Channel.trg_of_eq hl), ?_⟩
  rw [Chip.updCh_chan_self]
  refine ⟨Channel.trg_of_ne_rising, Channel.trg_of_waitTrig, fun hl hr ha hm hd => ?lowered,
    fun hl hr ha hm hd => ?expired, fun hl _ hw hn => Channel.trg_of_not_counting hl hw hn⟩
  case lowered =>
    exact (Channel.trg_of_counting hl hr ha hm).trans (Channel.decrement_of_two_le hd)
  case expired =>
    rw [Channel.trg_of_counting hl hr ha hm, Channel.decrement_of_last (by simp [hd])]
    exact Channel.expiry_eq ..

/-- Settles O15: each clause is the equation of `Channel.tick` for its branch, on every channel of the chip. -/
theorem tickEffect : Obligations.TickEffect := by
  rintro s p k c rfl hc
  refine ⟨_, completes_chip (exec_tick k s) hc, rfl, rfl, fun i P hP => ?_⟩
  rw [Chip.mapCh_chan, show P = (c.chan i).prescale s.params from hP]
  refine ⟨Channel.tick_of_not_ticking, Channel.tick_of_psc_ne, fun hm ha hp hd => ?lowered,
    fun hm ha hp hd => ?expired⟩
  case lowered =>
    exact (Channel.tick_of_psc_eq hm ha hp).trans (Channel.decrement_of_two_le hd)
  case expired =>
    rw [Channel.tick_of_psc_eq hm ha hp, Channel.decrement_of_last (by simp [hd])]
    exact Channel.expiry_eq ..

/-- Settles O16: under either driver the channel is the expiry of itself with one other field changed, a field that neither the expiry nor the enable flag reads. -/
theorem expiryRequestsAtMostOnce : Obligations.ExpiryRequestsAtMostOnce := by
  rintro s k c i o hc (⟨rfl, he⟩ | ⟨l, rfl, he⟩)
  case inl =>
    obtain ⟨ha, hx⟩ := Channel.tick_of_expiresOnTick he
    refine ⟨_, completes_chip (exec_tick k s) hc, ?_⟩
    rw [Chip.mapCh_chan, hx]
    exact ⟨rfl, rfl, ha, Channel.expiry_pending_iff .., Channel.expiry_asserted_iff ..⟩
  case inr =>
    obtain ⟨ha, hx⟩ := Channel.trg_of_expiresOnEdge he
    refine ⟨_, completes_chip (exec_trg k i l s) hc, ?_⟩
    rw [Chip.updCh_chan_self, hx]
    exact ⟨rfl, rfl, ha, Channel.expiry_pending_iff .., Channel.expiry_asserted_iff ..⟩

/-- Settles O14: neither driver counts on a stopped channel, and a time constant arms a counter-mode channel without touching its mode or its recorded level, so the next qualifying edge counts. -/
theorem stoppedChannelDoesNotCount : Obligations.StoppedChannelDoesNotCount := by
  intro s k c i l hc hs
  refine ⟨⟨_, completes_chip (exec_trg k i l s) hc, ?level⟩,
    ⟨_, completes_chip (exec_tick k s) hc, ?tick⟩, fun hi hm v => ?armed⟩
  case level => rw [Chip.updCh_chan_self, Channel.trg_of_stopped _ _ hs]
  case tick => rw [Chip.mapCh_chan, Channel.tick_of_not_ticking (by simp [hs])]
  case armed =>
    obtain ⟨t, ht, hd, ⟨hp, -⟩, -⟩ := completes_write (exec_wrTc k i v s) hc hi
    refine ⟨t, _, ht, hd, ?_⟩
    rw [Chip.updCh_chan_self]
    have harmed : ((c.chan i).writeTc s.params v).run = .armed := by
      rw [Channel.writeTc_run, if_pos hm]
    refine ⟨harmed, fun hl hr h2 => ⟨_, completes_chip (exec_trg k i l t) hd, ?_⟩⟩
    rw [Chip.updCh_chan_self, Chip.updCh_chan_self, hp]
    exact congrArg Channel.down
      ((Channel.trg_of_counting (c := (c.chan i).writeTc s.params v) hl hr harmed hm).trans
        (Channel.decrement_of_two_le h2))

end Sys2Proof.Machine
end

section
/-! The host's writes by the byte itself (spec/42_controller.md R120, R121). -/

namespace Sys2Proof.Machine

/-! ### A write as a step of the machine -/

/-- Whatever a written byte decodes to begins with the test of `inited` on the chip it is written to (R120, R161). -/
theorem exec_decodeWrite (p : Params) (k : Nat) (a : ChanIx) (awaitTc : Bool) (b : Byte)
    (s : State) : ∃ f, exec (decodeWrite p k a awaitTc b) s = onChip k (hostWrite f) s := by
  cases awaitTc with
  | true => rw [decodeWrite_awaiting]; exact ⟨_, exec_wrTc k a b s⟩
  | false =>
    cases hb : b[0] with
    | true => rw [decodeWrite_odd p k a b hb]; exact ⟨_, exec_wrCtrl k a _ s⟩
    | false =>
      rw [decodeWrite_even p k a b hb]
      split
      · exact ⟨_, exec_wrVec k _ s⟩
      · exact ⟨_, exec_wrIgn k a _ s⟩

section Write

variable {s : State} {k : Nat} {c : Chip}

/-- A write faults on a chip that has had no `RESET` (R161). -/
theorem onChip_hostWrite_fault (f : Chip → Effect) (hc : s.chips[k]? = some c)
    (hi : c.inited = false) : onChip k (hostWrite f) s = .fault .writeBeforeInit := by
  rw [onChip_of _ _ _ _ hc]
  simp [hostWrite, hi]

/-- The next state of a write made of `completes`, on a chip that has been reset. -/
theorem onChip_hostWrite_completes (f : Chip → Chip) (r : Chip → Result)
    (hc : s.chips[k]? = some c) (hi : c.inited = true) :
    onChip k (hostWrite (completes f r)) s = .next (s.put k (f c) (r c)) := by
  rw [onChip_of _ _ _ _ hc, hostWrite_inited hi]
  rfl

/-- A byte written to a chip that is present is decoded under the flag of the slot it goes to (R51, R120). -/
theorem step_wr {a : ChanIx} {b : Byte} {rest : List Request}
    (hr : s.requests = .wr k a b :: rest) (hc : s.chips[k]? = some c) :
    step s = exec (decodeWrite s.params k a (c.chan a).awaitTc b) { s with requests := rest } := by
  simp only [step, hr, State.awaits, State.chip?_eq, hc, decode_wr]

end Write

/-! ### The statements -/

/-- Settles O44: the step is `step_wr`, and each clause is the row of `decodeWrite` for its slot, flag and byte. -/
theorem writeRouting : Obligations.WriteRouting := by
  intro s k c a b rest hr hc hL
  have hc' : { s with requests := rest }.chips[k]? = some c := hc
  rw [step_wr hr hc]
  refine ⟨fun hi => ?fault, fun hi ha hw hb => ?vector, fun hi ha hw hb => ?dropped,
    fun _ hw => ?constant, fun _ hw hb => ?control⟩
  case fault =>
    obtain ⟨f, hf⟩ := exec_decodeWrite s.params k a (c.chan a).awaitTc b { s with requests := rest }
    exact hf.trans (onChip_hostWrite_fault f hc' hi)
  case vector =>
    rw [hw, decodeWrite_even _ _ _ _ hb, if_pos ha, exec_wrVec, evenByte_upperBits b hb]
    exact onChip_hostWrite_completes _ _ hc' hi
  case dropped =>
    rw [hw, decodeWrite_even _ _ _ _ hb, if_neg ha, exec_wrIgn,
      onChip_hostWrite_completes _ _ hc' hi, State.put_same _ _ _ _ hc']
    rfl
  case constant =>
    rw [hw, decodeWrite_awaiting]
  case control =>
    rw [hw, decodeWrite_odd _ _ _ _ hb]
    exact ⟨_, ControlWord.toByte_ofByte b s.params.cwLayout hL hb, rfl⟩

/-- Settles O10: the number of the byte makes it the one that `WR.VEC` assembles from its seven bits. -/
theorem vectorWriteEffect : Obligations.VectorWriteEffect := by
  intro s k c v b hc hi hb
  have hbyte : evenByte v = b := BitVec.eq_of_toNat_eq ((evenByte_toNat v).trans hb.symm)
  exact ⟨_, completes_write (exec_wrVec k v s) hc hi, by rw [hbyte]⟩

end Sys2Proof.Machine
end

section
/-! The interrupt daisy chain (spec/43_daisy_chain.md R130 to R143). -/

namespace Sys2Proof.Machine

/-! ### Status and outputs of one chip -/

/-- No channel is in service exactly when every channel is in another state. -/
theorem Chip.anyAsserted_eq_false_iff (k : Chip) :
    k.anyAsserted = false ↔ ∀ i : ChanIx, (k.chan i).intState ≠ .asserted := by
  rw [← Bool.not_eq_true, Chip.anyAsserted_iff, not_exists]

theorem Chip.intOut_iff (p : Params) (k : Chip) :
    k.intOut p = true ↔ k.localStatus p ≠ .none := bne_iff_ne

theorem Chip.ieo_iff (p : Params) (k : Chip) (iei : Level) :
    k.ieo p iei = true ↔ iei = true ∧ k.localStatus p = .none := by
  rw [Chip.ieo, Bool.and_eq_true, beq_iff_eq]

/-- A chip presents a request exactly when it is not blocked and is PENDING by itself (R132). -/
theorem Chip.statusFor_pending (p : Params) (k : Chip) (iei : Level) :
    k.statusFor p iei = .pending ↔ iei = true ∧ k.localStatus p = .pending := by
  cases iei <;> simp [Chip.statusFor]

/-- The effective vector by its number: the sum is taken modulo 256 (D17). -/
theorem Chip.effectiveVector_eq (k : Chip) (i : ChanIx) :
    k.effectiveVector i = BitVec.ofNat 8 (k.vector.toNat + 2 * i.val) := by
  rw [BitVec.ofNat_add, BitVec.ofNat_toNat, BitVec.setWidth_eq]
  rfl

/-! ### Acknowledge and return on one chip -/

section OneChip

variable {s : State} {k : Nat} {c : Chip}

/-- On a PENDING chip `ACK` takes the channel that R136 selects. -/
theorem ack_completes (hc : s.chips[k]? = some c) (hp : c.localStatus s.params = .pending) :
    ∃ i : ChanIx, c.ackChannel s.params = some i ∧
      ChipCompletes (.ack k) k s (c.updCh i fun x => { x with intState := .asserted })
        (.byte (c.effectiveVector i)) := by
  obtain ⟨-, i, hi, ha⟩ | ⟨hn, -⟩ := c.acknowledge_cases s.params
  · exact ⟨i, hi, completes_of (exec_ack k s) hc ha⟩
  · exact absurd hp hn

/-- On a chip that is not PENDING `ACK` faults (R162). -/
theorem ack_faults (hc : s.chips[k]? = some c) (hp : c.localStatus s.params ≠ .pending) :
    exec (.ack k) s = .fault .ackNotPending := by
  rw [exec_ack, onChip_of _ _ _ _ hc, Chip.acknowledge, if_neg hp]

/-- `RETI` ends the service of the channel that R138 selects. -/
theorem reti_clears {i : ChanIx} (hc : s.chips[k]? = some c) (hi : c.serviceChannel = some i) :
    ChipCompletes (.reti k) k s (c.updCh i fun x => { x with intState := .none })
      (.truth true) :=
  completes_of (exec_reti k s) hc (by rw [Chip.returnFromInterrupt, hi])

/-- `RETI` on a chip with nothing in service only answers. -/
theorem reti_passes_on (hc : s.chips[k]? = some c) (ha : c.anyAsserted = false) :
    ChipCompletes (.reti k) k s c (.truth false) := by
  have hn : c.serviceChannel = none := by
    rw [← Option.isNone_iff_eq_none, ← Option.not_isSome, c.serviceChannel_isSome, ha]
    rfl
  exact completes_of (exec_reti k s) hc (by rw [Chip.returnFromInterrupt, hn])

/-- A chip with a channel in service has one that `RETI` selects. -/
theorem Chip.exists_serviceChannel (ha : c.anyAsserted = true) :
    ∃ i : ChanIx, c.serviceChannel = some i :=
  Option.isSome_iff_exists.1 (c.serviceChannel_isSome.trans ha)

end OneChip

/-! ### The deciding member of a chain -/

/-- The enable-in of a member is that of the head, unless a member before it holds or requests the line (R140). -/
theorem chainIei_iff (p : Params) (ms : List Chip) (n : Nat) (hn : n ≤ ms.length) :
    chainIei p ms n = true ↔
      p.ieiHead = true ∧ ∀ c ∈ ms.take n, c.localStatus p = .none := by
  induction n with
  | zero => simp [chainIei]
  | succ n ih =>
    have hget : ms[n]? = some ms[n] := List.getElem?_eq_getElem hn
    rw [chainIei, hget]
    dsimp only
    rw [Chip.ieo_iff, ih (by omega), List.take_add_one, hget, Option.toList_some,
      List.forall_mem_append, List.forall_mem_singleton, and_assoc]

/-- A property of the chips before place `n` of a chain, with or without their numbers. -/
theorem forall_mem_take_zip {cs : List Nat} {ms : List Chip} (hl : cs.length = ms.length)
    (n : Nat) (P : Chip → Prop) :
    (∀ m ∈ (cs.zip ms).take n, P m.2) ↔ ∀ x ∈ ms.take n, P x := by
  have htake : ms.take n = ((cs.zip ms).take n).map Prod.snd := by
    rw [List.map_take, List.map_snd_zip (Nat.le_of_eq hl.symm)]
  rw [htake, List.forall_mem_map]

section Chain

variable {s : State} {cs : List Nat} {ms : List Chip}

/-- A chain lists one number for each of its chips. -/
theorem ChainOf.length_eq (h : ChainOf s cs ms) : cs.length = ms.length := by
  simpa using congrArg List.length h

/-- The number at a place of a chain names the chip at that place. -/
theorem ChainOf.chip {n k : Nat} {c : Chip} (h : ChainOf s cs ms) (hk : cs[n]? = some k)
    (hc : ms[n]? = some c) : s.chips[k]? = some c := by
  have hmem : (k, c) ∈ cs.zip ms := List.mem_of_getElem? (List.getElem?_zip_eq_some.2 ⟨hk, hc⟩)
  exact (State.mem_members (s.members?_of cs ms h) hmem).2

/-- The requester of a chain by its place (R141, R142). -/
theorem chainRequester_zip (p : Params) (hl : cs.length = ms.length) (k : Nat) :
    chainRequester p (cs.zip ms) = some k ↔ ∃ n c, cs[n]? = some k ∧ ms[n]? = some c ∧
      c.localStatus p = .pending ∧ ∀ x ∈ ms.take n, x.localStatus p = .none := by
  simp only [chainRequester_some, List.getElem?_zip_eq_some, and_assoc,
    forall_mem_take_zip hl _ fun x => x.localStatus p = .none]

/-- A chain has a requester exactly when some member is PENDING and all before it are NONE. -/
theorem chainRequester_isSome (p : Params) (hl : cs.length = ms.length) :
    (chainRequester p (cs.zip ms)).isSome = true ↔ ∃ n c, ms[n]? = some c ∧
      c.localStatus p = .pending ∧ ∀ x ∈ ms.take n, x.localStatus p = .none := by
  rw [Option.isSome_iff_exists]
  constructor
  · rintro ⟨k, hk⟩
    obtain ⟨n, c, -, hfirst⟩ := (chainRequester_zip p hl k).1 hk
    exact ⟨n, c, hfirst⟩
  · rintro ⟨n, c, hc, hfirst⟩
    have hn : n < cs.length := hl ▸ (List.getElem?_eq_some_iff.1 hc).1
    exact ⟨_, (chainRequester_zip p hl _).2 ⟨n, c, List.getElem?_eq_getElem hn, hc, hfirst⟩⟩

/-- The two readings of R141: a member presents a request under its enable-in exactly when it is PENDING and all before it are NONE. -/
theorem statusFor_chainIei_pending {p : Params} {n : Nat} {c : Chip} (hh : p.ieiHead = true)
    (hc : ms[n]? = some c) :
    c.statusFor p (chainIei p ms n) = .pending ↔
      c.localStatus p = .pending ∧ ∀ x ∈ ms.take n, x.localStatus p = .none := by
  have hn : n ≤ ms.length := (List.getElem?_eq_some_iff.1 hc).1.le
  rw [Chip.statusFor_pending, chainIei_iff p ms n hn, and_comm]
  simp only [hh, true_and]

/-- The member in service is the first with an asserted channel (R143). -/
theorem chainInService_zip {n k : Nat} {c : Chip} (hl : cs.length = ms.length)
    (hk : cs[n]? = some k) (hc : ms[n]? = some c) (ha : c.anyAsserted = true)
    (hfirst : ∀ x ∈ ms.take n, x.anyAsserted = false) :
    chainInService (cs.zip ms) = some k := by
  obtain ⟨hn, hget⟩ := List.getElem?_eq_some_iff.1
    (List.getElem?_zip_eq_some (z := (k, c)).2 ⟨hk, hc⟩)
  have hsplit : cs.zip ms = (cs.zip ms).take n ++ (k, c) :: (cs.zip ms).drop (n + 1) := by
    rw [← hget, ← List.drop_eq_getElem_cons hn, List.take_append_drop]
  have hbefore := (forall_mem_take_zip hl n fun x => x.anyAsserted = false).2 hfirst
  have hfind : (cs.zip ms).find? (fun m => m.2.anyAsserted) = some (k, c) :=
    List.find?_eq_some_iff_append.2 ⟨ha, _, _, hsplit, fun m hm => by simp [hbefore m hm]⟩
  rw [chainInService, hfind]
  rfl

/-- Where no member has an asserted channel, none is in service. -/
theorem chainInService_zip_none (cs : List Nat) (h : ∀ x ∈ ms, x.anyAsserted = false) :
    chainInService (cs.zip ms) = none := by
  rw [chainInService, Option.map_eq_none_iff, List.find?_eq_none]
  exact fun m hm => by simp [h m.2 (List.of_mem_zip hm).2]

/-! ### The chain's operations on a chain of present chips -/

/-- `CHAIN.IRQ` answers whether there is a requester and changes no chip. -/
theorem chainIrq_completes (h : ChainOf s cs ms) : exec (.chainIrq cs) s =
    .next { s with result := .truth (chainRequester s.params (cs.zip ms)).isSome } := by
  rw [exec_chainIrq, onChain_of _ (s.members?_of cs ms h)]
  rfl

/-- `CHAIN.ACK` is `ACK` on the requester. -/
theorem chainAck_eq_ack {k : Nat} (h : ChainOf s cs ms)
    (hk : chainRequester s.params (cs.zip ms) = some k) :
    exec (.chainAck cs) s = exec (.ack k) s := by
  rw [exec_chainAck, onChain_of _ (s.members?_of cs ms h), hk, exec_ack]

/-- `CHAIN.ACK` faults without a requester. -/
theorem chainAck_faults (h : ChainOf s cs ms)
    (hk : chainRequester s.params (cs.zip ms) = none) :
    exec (.chainAck cs) s = .fault .chainAckNoRequest := by
  rw [exec_chainAck, onChain_of _ (s.members?_of cs ms h), hk]

/-- `CHAIN.RETI` is `RETI` on the member in service. -/
theorem chainReti_eq_reti {k : Nat} (h : ChainOf s cs ms)
    (hk : chainInService (cs.zip ms) = some k) :
    exec (.chainReti cs) s = exec (.reti k) s := by
  rw [exec_chainReti, onChain_of _ (s.members?_of cs ms h), hk, exec_reti]

/-- `CHAIN.RETI` only answers where no member is in service. -/
theorem chainReti_passes_on (h : ChainOf s cs ms) (hk : chainInService (cs.zip ms) = none) :
    exec (.chainReti cs) s = .next { s with result := .truth false } := by
  rw [exec_chainReti, onChain_of _ (s.members?_of cs ms h), hk]
  rfl

end Chain

/-! ### The statements -/

/-- Settles O20: the two walks over the channels are `anyAsserted` and `anyPending`, and the status tests the first before the second. -/
theorem localStatus : Obligations.LocalStatus := by
  intro p k
  rw [← Chip.anyAsserted_iff, ← Chip.anyPending_iff, Bool.not_eq_true, Bool.not_eq_true]
  exact ⟨k.localStatus_asserted p, k.localStatus_pending p, k.localStatus_none p⟩

/-- Settles O21: each output is the one test of the status that defines it. -/
theorem chipOutputs : Obligations.ChipOutputs := by
  intro p k iei
  exact ⟨k.intOut_iff p, k.ieo_iff p iei⟩

/-- Settles O22: the chip operation of `STATUS` is the identity, and the answer is `statusFor` at either enable-in. -/
theorem statusEffect : Obligations.StatusEffect := by
  intro s k c hc
  exact ⟨completes_chip (exec_status k false s) hc, completes_chip (exec_status k true s) hc⟩

/-- Settles O23: the channel taken is `ackChannel`, the lowest that requests, and once it is asserted the chip is ASSERTED whatever the others are. -/
theorem acknowledgeEffect : Obligations.AcknowledgeEffect := by
  rintro s p k c rfl hc
  refine ⟨fun hp => ?taken, ack_faults hc⟩
  obtain ⟨i, hi, hack⟩ := ack_completes hc hp
  obtain ⟨⟨hen, hpend⟩, hlow⟩ := (c.ackChannel_some s.params i).1 hi
  have hst : (c.updCh i fun x => { x with intState := .asserted }).localStatus s.params =
      .asserted :=
    (Chip.localStatus_asserted ..).2 ((Chip.anyAsserted_iff _).2 ⟨i, by rw [Chip.updCh_chan_self]⟩)
  rw [c.effectiveVector_eq i] at hack
  exact ⟨i, _, hen, hpend, hlow, hack, c.updCh_onlyChannel i _, c.updCh_chan_self i _, hst,
    (Chip.intOut_iff ..).2 (by simp [hst])⟩

/-- Settles O24: the channel cleared is `serviceChannel`, which the two premises on `i` describe. -/
theorem returnEffect : Obligations.ReturnEffect := by
  intro s k c hc
  refine ⟨fun hn => reti_passes_on hc (c.anyAsserted_eq_false_iff.2 hn), fun i ha hlow => ?_⟩
  exact ⟨_, reti_clears hc ((c.serviceChannel_some i).2 ⟨ha, hlow⟩), c.updCh_onlyChannel i _,
    c.updCh_chan_self i _⟩

/-- Settles O27: the answer is whether there is a requester, and a member presents a request under its enable-in exactly when it is that requester. -/
theorem chainRequest : Obligations.ChainRequest := by
  rintro s p cs ms rfl h
  have hreq := chainRequester_isSome s.params h.length_eq
  refine ⟨_, chainIrq_completes h, fun hh => hreq.trans ?_, hreq⟩
  exact exists_congr fun n => exists_congr fun c => and_congr_right fun hc =>
    (statusFor_chainIei_pending hh hc).symm

/-- Settles O28: a member that is PENDING after members that are NONE is the requester, on which `ACK` completes; where there is no such member there is no requester. -/
theorem chainAcknowledge : Obligations.ChainAcknowledge := by
  rintro s p cs ms rfl h
  refine ⟨fun n k c hk hc hp hfirst => ?requester, fun hn => ?fault⟩
  case requester =>
    have hreq := (chainRequester_zip s.params h.length_eq k).2 ⟨n, c, hk, hc, hp, hfirst⟩
    obtain ⟨i, -, t, ht, -⟩ := ack_completes (h.chip hk hc) hp
    exact ⟨t, (chainAck_eq_ack h hreq).trans ht, ht⟩
  case fault =>
    exact chainAck_faults h
      (Option.not_isSome_iff_eq_none.1 (mt (chainRequester_isSome s.params h.length_eq).1 hn))

/-- Settles O29: the first member with an asserted channel is the member in service, on which `RETI` answers true. -/
theorem chainReturn : Obligations.ChainReturn := by
  intro s cs ms h
  simp only [← Chip.anyAsserted_eq_false_iff, ← Chip.anyAsserted_iff]
  refine ⟨fun hn => chainReti_passes_on h (chainInService_zip_none cs hn),
    fun n k c hk hc ha hfirst => ?_⟩
  obtain ⟨i, hi⟩ := Chip.exists_serviceChannel ha
  obtain ⟨t, ht, -, -, hr⟩ := reti_clears (h.chip hk hc) hi
  exact ⟨t, (chainReti_eq_reti h (chainInService_zip h.length_eq hk hc ha hfirst)).trans ht, ht, hr⟩

end Sys2Proof.Machine
end

section
/-! The faults and the refusal (spec/60_exceptions.md R161 to R164). -/

namespace Sys2Proof.Machine

/-! ### A chip before its first `RESET` (R27 clause 8) -/

section Fresh

variable {p : Params} {c : Chip}

/-- A change of all channels that leaves each as it is leaves the chip as it is. -/
theorem Chip.mapCh_same {f : Channel → Channel} (h : ∀ i : ChanIx, f (c.chan i) = c.chan i) :
    c.mapCh f = c :=
  Chip.ext_chan (c.mapCh_inited f) (c.mapCh_vector f) fun i => (c.mapCh_chan f i).trans (h i)

/-- A chip whose status is NONE answers so under either enable-in (R132). -/
theorem Chip.statusFor_of_none (iei : Level) (h : c.localStatus p = .none) :
    c.statusFor p iei = .none := by
  cases iei with
  | false => rfl
  | true => exact h

/-- No channel of a chip that has had no `RESET` runs, has expired, or has a request. -/
theorem Chip.Inv.chan_of_not_inited (hv : c.Inv p) (hi : c.inited = false) (i : ChanIx) :
    (c.chan i).run = .stopped ∧ (c.chan i).down = p.countPowerOn ∧ (c.chan i).intState = .none := by
  obtain ⟨-, -, hfresh⟩ := hv
  have h : (c.chan i).FreshButLevel p i := hfresh hi i
  exact ⟨congrArg Channel.run h, congrArg Channel.down h, congrArg Channel.intState h⟩

theorem Chip.Inv.anyAsserted_of_not_inited (hv : c.Inv p) (hi : c.inited = false) :
    c.anyAsserted = false := by
  refine c.anyAsserted_eq_false_iff.2 fun i => ?_
  obtain ⟨-, -, hnone⟩ := hv.chan_of_not_inited hi i
  simp [hnone]

/-- Nothing can be pending before the first `RESET` (R162). -/
theorem Chip.Inv.localStatus_of_not_inited (hv : c.Inv p) (hi : c.inited = false) :
    c.localStatus p = .none := by
  refine (c.localStatus_none p).2 ⟨hv.anyAsserted_of_not_inited hi, Bool.eq_false_iff.2 fun h => ?_⟩
  obtain ⟨i, -, hpend⟩ := (c.anyPending_iff p).1 h
  obtain ⟨-, -, hnone⟩ := hv.chan_of_not_inited hi i
  cases hnone.symm.trans hpend

end Fresh

/-! ### One chip: the writes, `ACK`, `RETI` -/

section OneChip

variable {s : State} {k : Nat} {c : Chip} {o : Instr}

/-- An operation that completes on a chip has a next state. -/
theorem ChipCompletes.exec_next {d : Chip} {r : Result} (h : ChipCompletes o k s d r) :
    ∃ t, exec o s = .next t := h.imp fun _ => And.left

/-- Each of the four decodings of `WR` begins with the test of `inited` (R120, R161). -/
theorem IsWrite.exec_eq (h : IsWrite k o) (s : State) :
    ∃ f, exec o s = onChip k (hostWrite f) s := by
  cases o with
  | wrVec j v => obtain rfl : j = k := h; exact ⟨_, exec_wrVec j v s⟩
  | wrCtrl j i w => obtain rfl : j = k := h; exact ⟨_, exec_wrCtrl j i w s⟩
  | wrTc j i v => obtain rfl : j = k := h; exact ⟨_, exec_wrTc j i v s⟩
  | wrIgn j i x => obtain rfl : j = k := h; exact ⟨_, exec_wrIgn j i x s⟩
  | _ => exact h.elim

/-- Every `WR` faults on a chip that has had no `RESET` (R161). -/
theorem IsWrite.exec_faults (h : IsWrite k o) (hc : s.chips[k]? = some c)
    (hi : c.inited = false) : exec o s = .fault .writeBeforeInit := by
  obtain ⟨f, hf⟩ := h.exec_eq s
  exact hf.trans (onChip_hostWrite_fault f hc hi)

/-- On a chip that is present `ACK` faults exactly when the chip is not PENDING (R162). -/
theorem ack_faults_iff (hc : s.chips[k]? = some c) :
    exec (.ack k) s = .fault .ackNotPending ↔ c.localStatus s.params ≠ .pending := by
  refine ⟨fun hf hp => ?_, ack_faults hc⟩
  obtain ⟨i, -, t, ht, -⟩ := ack_completes hc hp
  cases hf.symm.trans ht

/-- `RETI` completes wherever its chip is present. -/
theorem reti_completes (hc : s.chips[k]? = some c) : ∃ t, exec (.reti k) s = .next t := by
  cases ha : c.anyAsserted with
  | false => exact (reti_passes_on hc ha).exec_next
  | true =>
    obtain ⟨i, hi⟩ := Chip.exists_serviceChannel ha
    exact (reti_clears hc hi).exec_next

end OneChip

/-! ### A chain of present chips -/

section Chain

variable {s t : State} {cs : List Nat} {ms : List Chip} {k : Nat}

/-- A list that names present chips only is a chain. -/
theorem exists_chainOf (h : ∀ k ∈ cs, k < s.chips.length) : ∃ ms, ChainOf s cs ms := by
  obtain ⟨ns, hns⟩ := Option.isSome_iff_exists.1 ((s.members?_isSome cs).2 h)
  obtain ⟨-, hget⟩ := (s.members?_some cs ns).1 hns
  exact ⟨ns.map Prod.snd, hget.trans (List.map_map ..).symm⟩

/-- Where `CHAIN.IRQ` completes, every member is present. -/
theorem exists_chainOf_of_chainIrq (h : exec (.chainIrq cs) s = .next t) :
    ∃ ms, ChainOf s cs ms := by
  rw [exec_chainIrq] at h
  obtain ⟨ns, hns, -⟩ := onChain_next h
  exact exists_chainOf ((s.members?_isSome cs).1 (by rw [hns]; rfl))

/-- A member of a chain, by its number, is a chip that is present. -/
theorem ChainOf.chip_of_mem_zip {c : Chip} (h : ChainOf s cs ms) (hm : (k, c) ∈ cs.zip ms) :
    s.chips[k]? = some c :=
  (State.mem_members (s.members?_of cs ms h) hm).2

/-- `CHAIN.ACK` completes on a chain that has a requester. -/
theorem chainAck_completes (h : ChainOf s cs ms)
    (hk : chainRequester s.params (cs.zip ms) = some k) : ∃ t, exec (.chainAck cs) s = .next t := by
  obtain ⟨c, hm, hp⟩ := chainRequester_mem hk
  obtain ⟨i, -, t, ht, -⟩ := ack_completes (h.chip_of_mem_zip hm) hp
  exact ⟨t, (chainAck_eq_ack h hk).trans ht⟩

/-- `CHAIN.ACK` faults exactly without a requester (R162). -/
theorem chainAck_faults_iff (h : ChainOf s cs ms) :
    exec (.chainAck cs) s = .fault .chainAckNoRequest ↔
      chainRequester s.params (cs.zip ms) = none := by
  refine ⟨fun hf => ?_, chainAck_faults h⟩
  by_contra hn
  obtain ⟨k, hk⟩ := Option.ne_none_iff_exists'.1 hn
  obtain ⟨t, ht⟩ := chainAck_completes h hk
  cases hf.symm.trans ht

/-- Where `CHAIN.IRQ` answers, `CHAIN.ACK` faults exactly when the answer is false (R162). -/
theorem chainAck_faults_iff_chainIrq (h : exec (.chainIrq cs) s = .next t) :
    exec (.chainAck cs) s = .fault .chainAckNoRequest ↔ t.result = .truth false := by
  obtain ⟨ms, hms⟩ := exists_chainOf_of_chainIrq h
  cases (chainIrq_completes hms).symm.trans h
  rw [chainAck_faults_iff hms]
  simp

/-- `CHAIN.RETI` completes on every chain of present chips. -/
theorem chainReti_completes (h : ChainOf s cs ms) : ∃ t, exec (.chainReti cs) s = .next t := by
  cases hk : chainInService (cs.zip ms) with
  | none => exact ⟨_, chainReti_passes_on h hk⟩
  | some k =>
    obtain ⟨c, hm, -⟩ := chainInService_mem hk
    obtain ⟨t, ht⟩ := reti_completes (h.chip_of_mem_zip hm)
    exact ⟨t, (chainReti_eq_reti h hk).trans ht⟩

/-- A chain none of whose members is PENDING has no requester. -/
theorem chainRequester_zip_none (p : Params) (hl : cs.length = ms.length)
    (h : ∀ c ∈ ms, c.localStatus p ≠ .pending) : chainRequester p (cs.zip ms) = none := by
  rw [← Option.not_isSome_iff_eq_none, chainRequester_isSome p hl]
  rintro ⟨n, c, hc, hp, -⟩
  exact h c (List.mem_of_getElem? hc) hp

end Chain

/-! ### The complete list of exceptional outcomes -/

/-- The table of R164: the exceptional outcome `x` of the operation `o` in the state `s`, one constructor for each row. -/
inductive Exceptional (s : State) : Instr → Host.Outcome State Fault Refusal → Prop where
  | writeBeforeInit {o : Instr} {k : Nat} {c : Chip} (ho : IsWrite k o)
      (hc : s.chips[k]? = some c) (hi : c.inited = false) :
      Exceptional s o (.fault .writeBeforeInit)
  | ackNotPending {k : Nat} {c : Chip} (hc : s.chips[k]? = some c)
      (hp : c.localStatus s.params ≠ .pending) :
      Exceptional s (.ack k) (.fault .ackNotPending)
  | chainAckNoRequest {cs : List Nat}
      (h : exec (.chainIrq cs) s = .next { s with result := .truth false }) :
      Exceptional s (.chainAck cs) (.fault .chainAckNoRequest)
  | ctrlDropsTriggerWait {k : Nat} {i : ChanIx} {w : ControlWord} {c : Chip}
      (hc : s.chips[k]? = some c) (hi : c.inited = true)
      (hd : (c.chan i).dropsTriggerWait s.params i w = true) :
      Exceptional s (.wrCtrl k i w) (.refused .ctrlDropsTriggerWait)

section Exceptional

variable {s : State} {o : Instr} {x : Host.Outcome State Fault Refusal}

/-- An operation that meets a row of the table has that row's outcome. -/
theorem Exceptional.exec_eq (h : Exceptional s o x) : exec o s = x := by
  cases h with
  | writeBeforeInit ho hc hi => exact ho.exec_faults hc hi
  | ackNotPending hc hp => exact ack_faults hc hp
  | chainAckNoRequest h => exact (chainAck_faults_iff_chainIrq h).2 rfl
  | ctrlDropsTriggerWait hc hi hd => exact wrCtrl_refused hc hi hd

/-- A write that completes on a chip that has been reset meets, on any other, the first row. -/
theorem IsWrite.completes_or_exceptional {k : Nat} {c : Chip} (ho : IsWrite k o)
    (hc : s.chips[k]? = some c) {d : Chip} (h : c.inited = true → ChipCompletes o k s d .nothing) :
    (∃ t, exec o s = .next t) ∨ ∃ x, Exceptional s o x := by
  cases hi : c.inited with
  | false => exact .inr ⟨_, .writeBeforeInit ho hc hi⟩
  | true => exact .inl (h hi).exec_next

/-- On chips that are present every operation completes or meets a row of the table (R164). -/
theorem exec_completes_or_exceptional (h : ∀ k ∈ chipOperands o, k < s.chips.length) :
    (∃ t, exec o s = .next t) ∨ ∃ x, Exceptional s o x := by
  have hchip : ∀ k ∈ chipOperands o, ∃ c, s.chips[k]? = some c := fun k hk =>
    ⟨_, List.getElem?_eq_getElem (h k hk)⟩
  cases o with
  | wrVec k v =>
    obtain ⟨c, hc⟩ := hchip k (List.mem_singleton_self k)
    exact IsWrite.completes_or_exceptional rfl hc (completes_write (exec_wrVec k v s) hc)
  | wrCtrl k i w =>
    obtain ⟨c, hc⟩ := hchip k (List.mem_singleton_self k)
    cases hd : (c.chan i).dropsTriggerWait s.params i w with
    | false => exact IsWrite.completes_or_exceptional rfl hc fun hi => wrCtrl_completes hc hi hd
    | true =>
      cases hi : c.inited with
      | false => exact .inr ⟨_, .writeBeforeInit rfl hc hi⟩
      | true => exact .inr ⟨_, .ctrlDropsTriggerWait hc hi hd⟩
  | wrTc k i v =>
    obtain ⟨c, hc⟩ := hchip k (List.mem_singleton_self k)
    exact IsWrite.completes_or_exceptional rfl hc (completes_write (exec_wrTc k i v s) hc)
  | wrIgn k i v =>
    obtain ⟨c, hc⟩ := hchip k (List.mem_singleton_self k)
    exact IsWrite.completes_or_exceptional rfl hc (completes_write (exec_wrIgn k i v s) hc)
  | rd k i =>
    obtain ⟨c, hc⟩ := hchip k (List.mem_singleton_self k)
    exact .inl (completes_chip (exec_rd k i s) hc).exec_next
  | trg k i l =>
    obtain ⟨c, hc⟩ := hchip k (List.mem_singleton_self k)
    exact .inl (completes_chip (exec_trg k i l s) hc).exec_next
  | tick k =>
    obtain ⟨c, hc⟩ := hchip k (List.mem_singleton_self k)
    exact .inl (completes_chip (exec_tick k s) hc).exec_next
  | reset k =>
    obtain ⟨c, hc⟩ := hchip k (List.mem_singleton_self k)
    exact .inl (completes_chip (exec_reset k s) hc).exec_next
  | status k iei =>
    obtain ⟨c, hc⟩ := hchip k (List.mem_singleton_self k)
    exact .inl (completes_chip (exec_status k iei s) hc).exec_next
  | ack k =>
    obtain ⟨c, hc⟩ := hchip k (List.mem_singleton_self k)
    by_cases hp : c.localStatus s.params = .pending
    · obtain ⟨i, -, hack⟩ := ack_completes hc hp
      exact .inl hack.exec_next
    · exact .inr ⟨_, .ackNotPending hc hp⟩
  | reti k =>
    obtain ⟨c, hc⟩ := hchip k (List.mem_singleton_self k)
    exact .inl (reti_completes hc)
  | chainIrq cs =>
    obtain ⟨ms, hms⟩ := exists_chainOf (cs := cs) h
    exact .inl ⟨_, chainIrq_completes hms⟩
  | chainAck cs =>
    obtain ⟨ms, hms⟩ := exists_chainOf (cs := cs) h
    cases hk : chainRequester s.params (cs.zip ms) with
    | none => exact .inr ⟨_, .chainAckNoRequest (by rw [chainIrq_completes hms, hk]; rfl)⟩
    | some k => exact .inl (chainAck_completes hms hk)
  | chainReti cs =>
    obtain ⟨ms, hms⟩ := exists_chainOf (cs := cs) h
    exact .inl (chainReti_completes hms)

/-- On chips that are present an outcome other than completion is answered exactly where the table has it. -/
theorem exec_eq_iff_exceptional (h : ∀ k ∈ chipOperands o, k < s.chips.length)
    (hx : ∀ t, x ≠ .next t) : exec o s = x ↔ Exceptional s o x := by
  refine ⟨fun he => ?_, Exceptional.exec_eq⟩
  obtain ⟨t, ht⟩ | ⟨y, hy⟩ := exec_completes_or_exceptional h
  · exact absurd (he.symm.trans ht) (hx t)
  · rwa [← he, hy.exec_eq]

theorem exec_fault_iff {e : Fault} (h : ∀ k ∈ chipOperands o, k < s.chips.length) :
    exec o s = .fault e ↔ Exceptional s o (.fault e) :=
  exec_eq_iff_exceptional h fun _ => nofun

theorem exec_refused_iff {e : Refusal} (h : ∀ k ∈ chipOperands o, k < s.chips.length) :
    exec o s = .refused e ↔ Exceptional s o (.refused e) :=
  exec_eq_iff_exceptional h fun _ => nofun

end Exceptional

/-! ### The statements -/

/-- Settles O32: the writes fault at their common test, and R27 makes every channel of such a chip a stopped one without a request, whose chip has status NONE. -/
theorem beforeFirstReset : Obligations.BeforeFirstReset := by
  refine ⟨fun s k c o hc hi ho => ho.exec_faults hc hi, fun s k c i l hc hi hv => ?chip,
    fun s cs ms h hms => ?chain⟩
  case chip =>
    obtain ⟨hstop, hdown, -⟩ := hv.chan_of_not_inited hi i
    have htick : c.mapCh (Channel.tick s.params) = c := Chip.mapCh_same fun j => by
      obtain ⟨hj, -, -⟩ := hv.chan_of_not_inited hi j
      exact Channel.tick_of_not_ticking (by simp [hj])
    have hstatus : c.statusFor s.params l = .none :=
      Chip.statusFor_of_none l (hv.localStatus_of_not_inited hi)
    refine ⟨⟨_, completes_chip (exec_rd k i s) hc, ?count, fun hp => ?defaults⟩,
      ⟨_, completes_chip (exec_trg k i l s) hc, c.updCh_onlyChannel i _, ?level⟩, ?tick, ?status,
      reti_passes_on hc (hv.anyAsserted_of_not_inited hi)⟩
    case count => rw [Channel.readByte_toNat, hdown]
    case defaults =>
      rw [Channel.readByte, hdown, hp]
      rfl
    case level => rw [Chip.updCh_chan_self, Channel.trg_of_stopped _ _ hstop]
    case tick => simpa only [htick] using completes_chip (exec_tick k s) hc
    case status => simpa only [hstatus] using completes_chip (exec_status k l s) hc
  case chain =>
    have hreq : chainRequester s.params (cs.zip ms) = none :=
      chainRequester_zip_none s.params h.length_eq fun c hc => by
        obtain ⟨hi, hv⟩ := hms c hc
        simp [hv.localStatus_of_not_inited hi]
    have hserv : chainInService (cs.zip ms) = none :=
      chainInService_zip_none cs fun c hc => by
        obtain ⟨hi, hv⟩ := hms c hc
        exact hv.anyAsserted_of_not_inited hi
    exact ⟨by rw [chainIrq_completes h, hreq]; rfl, chainReti_passes_on h hserv⟩

/-- Settles O33: a PENDING chip has a channel for `ACK` to take, a chain with a requester has a PENDING chip, and before the first `RESET` the status is NONE. -/
theorem acknowledgeFaults : Obligations.AcknowledgeFaults := by
  refine ⟨fun s k c hc => ⟨ack_faults_iff hc, fun hi hv => ack_faults hc ?_⟩,
    fun s t cs h => chainAck_faults_iff_chainIrq h⟩
  simp [hv.localStatus_of_not_inited hi]

/-- Settles O34: every outcome but completion is a row of the table `Exceptional`, and each clause reads off the row of its outcome. -/
theorem exceptionalOutcomesComplete : Obligations.ExceptionalOutcomesComplete := by
  intro s o h
  refine ⟨?write, ?ack, ?chainAck, ?ctrl, ?complete⟩
  case write =>
    rw [exec_fault_iff h]
    constructor
    · intro hx
      cases hx with
      | writeBeforeInit ho hc hi => exact ⟨_, _, ho, hc, hi⟩
    · rintro ⟨k, c, ho, hc, hi⟩
      exact .writeBeforeInit ho hc hi
  case ack =>
    rw [exec_fault_iff h]
    constructor
    · intro hx
      cases hx with
      | ackNotPending hc hp => exact ⟨_, _, rfl, hc, hp⟩
    · rintro ⟨k, c, rfl, hc, hp⟩
      exact .ackNotPending hc hp
  case chainAck =>
    rw [exec_fault_iff h]
    constructor
    · intro hx
      cases hx with
      | chainAckNoRequest hirq => exact ⟨_, rfl, hirq⟩
    · rintro ⟨cs, rfl, hirq⟩
      exact .chainAckNoRequest hirq
  case ctrl =>
    rw [exec_refused_iff h]
    constructor
    · intro hx
      cases hx with
      | ctrlDropsTriggerWait hc hi hd => exact ⟨_, _, _, _, rfl, hc, hi, (Channel.dropsTriggerWait_iff ..).1 hd⟩
    · rintro ⟨k, i, w, c, rfl, hc, hi, hd⟩
      exact .ctrlDropsTriggerWait hc hi ((Channel.dropsTriggerWait_iff ..).2 hd)
  case complete =>
    obtain hnext | ⟨x, hx⟩ := exec_completes_or_exceptional h
    · exact .inl hnext
    · rw [hx.exec_eq]
      cases hx <;> simp

end Sys2Proof.Machine
end

section
/-! Hardware reset of a chip (spec/70_reset_and_hazards.md R192). -/

namespace Sys2Proof.Machine

/-! ### A chip that requests nothing -/

section Quiet

variable {p : Params} {c : Chip}

/-- A chip has status NONE when no channel has a request, pending or in service (R130). -/
theorem Chip.localStatus_none_of_intState (h : ∀ i : ChanIx, (c.chan i).intState = .none) :
    c.localStatus p = .none := by
  refine (c.localStatus_none p).2 ⟨c.anyAsserted_eq_false_iff.2 fun i => ?asserted,
    Bool.eq_false_iff.2 fun hp => ?pending⟩
  case asserted => simp [h i]
  case pending =>
    obtain ⟨i, -, hi⟩ := (c.anyPending_iff p).1 hp
    cases (h i).symm.trans hi

/-- A chip whose status is NONE does not request (R131). -/
theorem Chip.intOut_of_none (h : c.localStatus p = .none) : c.intOut p = false :=
  Bool.eq_false_iff.2 fun hint => (c.intOut_iff p).1 hint h

/-- A chip whose status is NONE passes its enable-in on (R133). -/
theorem Chip.ieo_of_none (iei : Level) (h : c.localStatus p = .none) : c.ieo p iei = iei :=
  Bool.eq_iff_iff.2 ((c.ieo_iff p iei).trans (and_iff_left h))

end Quiet

/-! ### The statement -/

/-- Settles O5: `RESET` answers `Chip.hwReset` of the chip without a test, every channel of which has no request, so the status is NONE and both outputs follow from it. -/
theorem resetEffect : Obligations.ResetEffect := by
  intro s k c hc
  have hstatus : c.hwReset.localStatus s.params = .none :=
    Chip.localStatus_none_of_intState fun i => by rw [Chip.hwReset_chan, Channel.hwReset_intState]
  exact ⟨c.hwReset, completes_chip (exec_reset k s) hc, c.hwReset_inited, c.hwReset_vector,
    c.hwReset_chan, hstatus, Chip.intOut_of_none hstatus, fun iei => Chip.ieo_of_none iei hstatus⟩

end Sys2Proof.Machine
end

section
/-! What one operation can do to one channel, and the invariants of spec/10_state.md R27 under it. -/

namespace Sys2Proof

/-- Legal parameters have a layout of R62's kind and a count in the range of R15 and R16. -/
theorem Params.wf_iff (p : Params) : p.wf = true ↔
    p.cwLayout.wf = true ∧ 1 ≤ p.countPowerOn ∧ p.countPowerOn ≤ 256 := by
  rw [Params.wf, Bool.and_eq_true, Bool.and_eq_true, decide_eq_true_iff, decide_eq_true_iff,
    and_assoc, Config.tcMax]

theorem Params.wf_cwLayout {p : Params} (h : p.wf = true) : p.cwLayout.wf = true :=
  (p.wf_iff.1 h).1

end Sys2Proof

namespace Sys2Proof.Machine

/-! ### One channel under one operation -/

/-- Under the parameters `p`, `o` can take channel `i` of chip number `k` from `c` to `d`. One constructor for each way a channel can be written. -/
inductive ChannelStep (p : Params) : Instr → Nat → ChanIx → Channel → Channel → Prop where
  | same (o : Instr) (k : Nat) (i : ChanIx) (c : Channel) : ChannelStep p o k i c c
  | ctrl (k : Nat) (i : ChanIx) (w : ControlWord) (c : Channel)
      (hd : c.dropsTriggerWait p i w = false) :
      ChannelStep p (.wrCtrl k i w) k i c (c.writeCtrl p w)
  | tc (k : Nat) (i : ChanIx) (v : Byte) (c : Channel) :
      ChannelStep p (.wrTc k i v) k i c (c.writeTc p v)
  | trg (k : Nat) (i : ChanIx) (l : Level) (c : Channel) :
      ChannelStep p (.trg k i l) k i c (c.trg p l)
  | tick (k : Nat) (i : ChanIx) (c : Channel) : ChannelStep p (.tick k) k i c (c.tick p)
  | reset (k : Nat) (i : ChanIx) (c : Channel) : ChannelStep p (.reset k) k i c c.hwReset
  | ack (o : Instr) (k : Nat) (i : ChanIx) (c : Channel)
      (ho : o = .ack k ∨ ∃ cs, o = .chainAck cs ∧ k ∈ cs) (hp : c.intState = .pending) :
      ChannelStep p o k i c { c with intState := .asserted }
  | reti (o : Instr) (k : Nat) (i : ChanIx) (c : Channel)
      (ho : o = .reti k ∨ ∃ cs, o = .chainReti cs ∧ k ∈ cs) (ha : c.intState = .asserted) :
      ChannelStep p o k i c { c with intState := .none }

/-- Where one channel of a chip is written, every channel of it is written so or left. -/
theorem ChannelStep.of_updCh {p : Params} {o : Instr} {k : Nat} {j : ChanIx} {c : Chip}
    {f : Channel → Channel} (h : ChannelStep p o k j (c.chan j) (f (c.chan j))) (i : ChanIx) :
    ChannelStep p o k i (c.chan i) ((c.updCh j f).chan i) := by
  by_cases hi : i = j
  · rw [hi, Chip.updCh_chan_self]
    exact h
  · rw [Chip.updCh_chan_ne j i f c hi]
    exact .same o k i _

/-- Whatever an operation does to a chip, it does to each channel one of the things listed. -/
theorem ChipStep.channel {p : Params} {o : Instr} {k : Nat} {c d : Chip}
    (h : ChipStep p o k c d) (i : ChanIx) : ChannelStep p o k i (c.chan i) (d.chan i) := by
  cases h with
  | same => exact .same ..
  | vec => exact .same ..
  | ctrl k j w c _ hd => exact ChannelStep.of_updCh (.ctrl k j w _ hd) i
  | tc k j v c => exact ChannelStep.of_updCh (.tc k j v _) i
  | trg k j l c => exact ChannelStep.of_updCh (.trg k j l _) i
  | tick k c =>
    rw [Chip.mapCh_chan]
    exact .tick ..
  | reset k c =>
    rw [Chip.hwReset_chan]
    exact .reset ..
  | ack o k j c ho _ hj =>
    obtain ⟨⟨-, hp⟩, -⟩ := (c.ackChannel_some p j).1 hj
    exact ChannelStep.of_updCh (.ack o k j _ ho hp) i
  | reti o k j c ho hj =>
    obtain ⟨ha, -⟩ := (c.serviceChannel_some j).1 hj
    exact ChannelStep.of_updCh (.reti o k j _ ho ha) i

/-- What an operation that completes does to one channel of one chip. -/
theorem exec_channel {o : Instr} {s t : State} {k : Nat} {c d : Chip} (h : exec o s = .next t)
    (hc : s.chips[k]? = some c) (hd : t.chips[k]? = some d) (i : ChanIx) :
    ChannelStep s.params o k i (c.chan i) (d.chan i) :=
  (exec_chip h hc hd).channel i

/-! ### The invariant of one channel (R27 clauses 1, 2, 5, 6, 7) -/

section Channel

variable {p : Params} {c : Channel}

/-- The interrupt state and the recorded level are no part of the invariant. -/
theorem Channel.Inv.with_request_and_level (hv : c.Inv p) (st : IntState) (l : Level) :
    { c with intState := st, extLevel := l }.Inv p := hv

/-- A control word leaves a channel waiting exactly where it waited and is not reset (R81). -/
theorem Channel.writeCtrl_waitTrig_iff (p : Params) (w : ControlWord) (c : Channel) :
    (c.writeCtrl p w).run = .waitTrig ↔ w.swReset = false ∧ c.run = .waitTrig := by
  rw [Channel.writeCtrl_run]
  cases w.swReset <;> simp

/-- A time constant makes a channel wait exactly in timer mode with an effective trigger (R82). -/
theorem Channel.writeTc_waitTrig_iff (p : Params) (v : Byte) (c : Channel) :
    (c.writeTc p v).run = .waitTrig ↔ c.counter p = false ∧ c.trig p = true := by
  rw [Channel.writeTc_run]
  cases c.counter p <;> cases c.trig p <;> simp

/-- A control word keeps the invariant: one that a waiting channel takes without a reset keeps it waiting for a trigger (R84), and one that changes the prescaler or starts timer mode clears the prescaler counter. -/
theorem Channel.Inv.writeCtrl {i : ChanIx} {w : ControlWord} (hv : c.Inv p)
    (hL : p.cwLayout.wf = true) (hix : c.index = i) (hd : c.dropsTriggerWait p i w = false) :
    (c.writeCtrl p w).Inv p := by
  obtain ⟨htc, hdown, -, hpsc, -⟩ := hv
  have hcw : (c.writeCtrl p w).cw p = w := c.writeCtrl_cw p w hL
  refine ⟨by rwa [Channel.writeCtrl_tc], by rwa [Channel.writeCtrl_tc, Channel.writeCtrl_down],
    fun hrun => ?wait, fun hm => ?prescaler,
    (congrArg (·[0]) (c.writeCtrl_mode p w)).trans (w.toByte_bit0 p.cwLayout)⟩
  case wait =>
    obtain ⟨hr, hw⟩ := (c.writeCtrl_waitTrig_iff p w).1 hrun
    have hkeeps : w.counter = false ∧ w.trigger = true ∧ i ∈ p.trigChannels := by
      by_contra hn
      exact Bool.eq_false_iff.1 hd ((Channel.dropsTriggerWait_iff p i w c).2 ⟨hr, hw, hn⟩)
    obtain ⟨hm, ht, hi⟩ := hkeeps
    rw [Channel.counter, Channel.trig, hcw, Channel.writeCtrl_index, hix, ht]
    exact ⟨hm, decide_eq_true hi⟩
  case prescaler =>
    rw [Channel.counter, hcw] at hm
    rw [Channel.prescale, hcw, Channel.writeCtrl_eq]
    dsimp only
    split
    · split <;> decide
    · rename_i hsame
      simp only [not_or, not_not] at hsame
      obtain ⟨-, hcounter, hlong⟩ := hsame
      rw [hlong]
      exact hpsc (hcounter.symm.trans hm)

/-- A time constant keeps the invariant: it loads a value of 1..256, clears the prescaler counter, and makes only a trigger-mode timer wait (R82). -/
theorem Channel.Inv.writeTc (hv : c.Inv p) (v : Byte) : (c.writeTc p v).Inv p := by
  obtain ⟨-, -, -, -, hmode⟩ := hv
  have hrange := tcOfByte_range v
  exact ⟨hrange, ⟨hrange.1, le_refl _⟩, (c.writeTc_waitTrig_iff p v).1,
    fun _ => Channel.prescale_pos p _, hmode⟩

/-- A decrement keeps the invariant: a counter that reaches 0 is loaded anew (R105). -/
theorem Channel.Inv.decrement (hv : c.Inv p) : (c.decrement p).Inv p := by
  obtain ⟨htc, hdown, hrest⟩ := hv
  obtain ⟨-, he⟩ | ⟨hn, he⟩ := c.decrement_cases p <;> rw [he]
  · exact ⟨htc, ⟨htc.1, le_refl _⟩, hrest⟩
  · exact ⟨htc, ⟨Nat.one_le_iff_ne_zero.2 hn, (Nat.sub_le _ _).trans hdown.2⟩, hrest⟩

/-- Clearing the prescaler counter keeps the invariant. -/
theorem Channel.Inv.clear_psc (hv : c.Inv p) : { c with psc := 0 }.Inv p := by
  obtain ⟨htc, hdown, hwait, -, hmode⟩ := hv
  exact ⟨htc, hdown, hwait, fun _ => Channel.prescale_pos p c, hmode⟩

/-- A tick keeps the invariant: the prescaler counter is cleared before it reaches the factor (R103). -/
theorem Channel.Inv.tick (hv : c.Inv p) : (c.tick p).Inv p := by
  obtain ⟨-, he⟩ | ⟨ht, hn, he⟩ | ⟨-, -, he⟩ := c.tick_cases p <;> rw [he]
  · exact hv
  · obtain ⟨htc, hdown, hwait, hpsc, hmode⟩ := hv
    have hlt : c.psc < c.prescale p := hpsc ((c.ticking_iff p).1 ht).1
    exact ⟨htc, hdown, hwait, fun _ => Nat.lt_of_le_of_ne hlt hn, hmode⟩
  · exact hv.clear_psc.decrement

/-- An observed level keeps the invariant. -/
theorem Channel.Inv.trg (hv : c.Inv p) (l : Level) : (c.trg p l).Inv p := by
  obtain ⟨-, he⟩ | ⟨-, -, he⟩ | ⟨-, -, -, he⟩ | ⟨-, -, he⟩ := c.trg_cases p l <;> rw [he]
  · exact hv
  · obtain ⟨htc, hdown, -, hpsc, hmode⟩ := hv.clear_psc
    exact ⟨htc, hdown, nofun, hpsc, hmode⟩
  · exact (hv.with_request_and_level c.intState l).decrement
  · exact hv.with_request_and_level c.intState l

/-- The byte that `mode` holds at power-on and after a reset has its marker bit set (R31, R192). -/
theorem marker_resetMode : (0x03#8)[0] = true := by decide

/-- A hardware reset keeps the invariant: `tc` and `down` are retained (R192). -/
theorem Channel.Inv.hwReset (hv : c.Inv p) : c.hwReset.Inv p := by
  obtain ⟨htc, hdown, -⟩ := hv
  exact ⟨htc, hdown, nofun, fun _ => Channel.prescale_pos p _, marker_resetMode⟩

end Channel

/-! ### The fields of one channel that an operation can write (R12 to R23) -/

section Frame

variable {p : Params}

/-- A decrement writes the counter, the output and the interrupt state only. -/
theorem Channel.decrement_frame (p : Params) (c : Channel) :
    ∃ down zc st, c.decrement p = { c with down := down, zc := zc, intState := st } := by
  obtain ⟨-, he⟩ | ⟨-, he⟩ := c.decrement_cases p <;> exact ⟨_, _, _, he⟩

/-- A tick writes what a decrement does, and the prescaler counter. -/
theorem Channel.tick_frame (p : Params) (c : Channel) : ∃ down psc zc st,
    c.tick p = { c with down := down, psc := psc, zc := zc, intState := st } := by
  obtain ⟨-, he⟩ | ⟨-, -, he⟩ | ⟨-, -, he⟩ := c.tick_cases p
  · exact ⟨_, _, _, _, he⟩
  · exact ⟨_, _, _, _, he⟩
  · obtain ⟨down, zc, st, hd⟩ := { c with psc := 0 }.decrement_frame p
    exact ⟨down, 0, zc, st, he.trans hd⟩

/-- An observed level writes what a decrement does, the recorded level and the prescaler counter, and it starts a waiting channel. -/
theorem Channel.trg_frame (p : Params) (l : Level) (c : Channel) : ∃ ext run down psc zc st,
    c.trg p l = { c with
      extLevel := ext, run := run, down := down, psc := psc, zc := zc, intState := st } ∧
    (run = c.run ∨ c.run = .waitTrig ∧ run = .armed) := by
  obtain ⟨-, he⟩ | ⟨-, hw, he⟩ | ⟨-, -, -, he⟩ | ⟨-, -, he⟩ := c.trg_cases p l
  · exact ⟨_, _, _, _, _, _, he, .inl rfl⟩
  · exact ⟨_, _, _, _, _, _, he, .inr ⟨hw, rfl⟩⟩
  · obtain ⟨down, zc, st, hd⟩ := { c with extLevel := l }.decrement_frame p
    exact ⟨l, c.run, down, c.psc, zc, st, he.trans hd, .inl rfl⟩
  · exact ⟨_, _, _, _, _, _, he, .inl rfl⟩

/-- The clauses of `WhoWritesWhat` that speak of one channel: which operations can write which of its fields. -/
structure ChannelWrites (o : Instr) (k : Nat) (i : ChanIx) (c d : Channel) : Prop where
  index : d.index = c.index
  mode : d.mode ≠ c.mode → o = .reset k ∨ ∃ w, o = .wrCtrl k i w
  awaitTc : d.awaitTc ≠ c.awaitTc →
    o = .reset k ∨ (∃ w, o = .wrCtrl k i w) ∨ ∃ v, o = .wrTc k i v
  tc : d.tc ≠ c.tc → ∃ v, o = .wrTc k i v
  down : d.down ≠ c.down → (∃ v, o = .wrTc k i v) ∨ (∃ l, o = .trg k i l) ∨ o = .tick k
  psc : d.psc ≠ c.psc → o = .reset k ∨ o = .tick k ∨ (∃ w, o = .wrCtrl k i w) ∨
    (∃ v, o = .wrTc k i v) ∨ ∃ l, o = .trg k i l
  run : d.run ≠ c.run → o = .reset k ∨ (∃ w, o = .wrCtrl k i w ∧ w.swReset = true) ∨
    (∃ v, o = .wrTc k i v) ∨ ∃ l, o = .trg k i l ∧ c.run = .waitTrig ∧ d.run = .armed
  extLevel : d.extLevel ≠ c.extLevel → ∃ l, o = .trg k i l
  zc : d.zc ≠ c.zc → (∃ l, o = .trg k i l) ∨ o = .tick k ∨ o = .reset k

/-- A channel none of whose fields but the interrupt state changed, under any operation. -/
theorem ChannelWrites.of_intState (o : Instr) (k : Nat) (i : ChanIx) (c : Channel)
    (st : IntState) : ChannelWrites o k i c { c with intState := st } := by
  constructor <;> simp

/-- Every way of writing a channel writes the fields of its row only. -/
theorem ChannelStep.writes {o : Instr} {k : Nat} {i : ChanIx} {c d : Channel}
    (h : ChannelStep p o k i c d) : ChannelWrites o k i c d := by
  cases h with
  | same => exact .of_intState o k i c c.intState
  | ctrl _ _ w =>
    constructor
    case run => simpa using fun hr _ => hr
    all_goals simp
  | tc => constructor <;> simp
  | trg _ _ l =>
    obtain ⟨ext, run, down, psc, zc, st, he, hrun⟩ := c.trg_frame p l
    rw [he]
    constructor
    case run => simpa using fun hne => hrun.resolve_left hne
    all_goals simp
  | tick =>
    obtain ⟨down, psc, zc, st, he⟩ := c.tick_frame p
    rw [he]
    constructor <;> simp
  | reset => constructor <;> simp
  | ack => exact .of_intState ..
  | reti => exact .of_intState ..

end Frame

/-! ### The interrupt state of one channel (R23) -/

section IntState

variable {p : Params} {c : Channel}

/-- A decrement changes the interrupt state only by raising a request: it expires, and the channel is enabled and idle (R106). -/
theorem Channel.decrement_intState (h : (c.decrement p).intState ≠ c.intState) :
    c.down - 1 = 0 ∧ c.intState = .none ∧ (c.decrement p).intState = .pending ∧
      c.intEn p = true := by
  obtain ⟨hd, he⟩ | ⟨-, he⟩ := c.decrement_cases p <;> rw [he] at h ⊢
  · by_cases hr : (c.intEn p && c.intState == .none) = true
    · obtain ⟨hen, hn⟩ : c.intEn p = true ∧ c.intState = .none := by simpa using hr
      exact ⟨hd, hn, if_pos hr, hen⟩
    · exact absurd (if_neg hr) h
  · exact absurd rfl h

/-- A tick changes the interrupt state only by an expiry that raises a request. -/
theorem Channel.tick_intState (h : (c.tick p).intState ≠ c.intState) :
    c.intState = .none ∧ (c.tick p).intState = .pending ∧ c.intEn p = true ∧
      c.expiresOnTick p = true := by
  obtain ⟨-, he⟩ | ⟨-, -, he⟩ | ⟨ht, hp, he⟩ := c.tick_cases p <;> rw [he] at h ⊢
  · exact absurd rfl h
  · exact absurd rfl h
  · obtain ⟨hd, hn, hpend, hen⟩ := Channel.decrement_intState h
    exact ⟨hn, hpend, hen, by simp [Channel.expiresOnTick, ht, hp, show c.down - 1 = 0 from hd]⟩

/-- An observed level changes the interrupt state only by an expiry that raises a request. -/
theorem Channel.trg_intState {l : Level} (h : (c.trg p l).intState ≠ c.intState) :
    c.intState = .none ∧ (c.trg p l).intState = .pending ∧ c.intEn p = true ∧
      c.expiresOnEdge p l = true := by
  obtain ⟨-, he⟩ | ⟨-, -, he⟩ | ⟨hq, ha, hm, he⟩ | ⟨-, -, he⟩ := c.trg_cases p l <;> rw [he] at h ⊢
  · exact absurd rfl h
  · exact absurd rfl h
  · obtain ⟨hd, hn, hpend, hen⟩ := Channel.decrement_intState h
    exact ⟨hn, hpend, hen, by
      rw [Channel.expiresOnEdge, hq, hm, ha, show c.down - 1 = 0 from hd]; rfl⟩
  · exact absurd rfl h

/-- The transitions of R23 with the operations that make them. -/
theorem ChannelStep.intState_cases {o : Instr} {k : Nat} {i : ChanIx} {d : Channel}
    (h : ChannelStep p o k i c d) (hne : d.intState ≠ c.intState) :
    (c.intState = .none ∧ d.intState = .pending ∧ c.intEn p = true ∧
      ((o = .tick k ∧ c.expiresOnTick p = true) ∨
       ∃ l, o = .trg k i l ∧ c.expiresOnEdge p l = true)) ∨
    (c.intState = .pending ∧ d.intState = .asserted ∧
      (o = .ack k ∨ ∃ cs, o = .chainAck cs ∧ k ∈ cs)) ∨
    (c.intState = .asserted ∧ d.intState = .none ∧
      (o = .reti k ∨ ∃ cs, o = .chainReti cs ∧ k ∈ cs)) ∨
    (d.intState = .none ∧ (o = .reset k ∨ ∃ w, o = .wrCtrl k i w ∧ w.swReset = true)) := by
  cases h with
  | same => exact absurd rfl hne
  | tc => exact absurd rfl hne
  | ctrl _ _ w =>
    rw [Channel.writeCtrl_intState] at hne ⊢
    cases hr : w.swReset with
    | false => simp [hr] at hne
    | true => exact .inr (.inr (.inr ⟨rfl, .inr ⟨w, rfl, hr⟩⟩))
  | trg _ _ l =>
    obtain ⟨hn, hp, hen, hx⟩ := Channel.trg_intState hne
    exact .inl ⟨hn, hp, hen, .inr ⟨l, rfl, hx⟩⟩
  | tick =>
    obtain ⟨hn, hp, hen, hx⟩ := Channel.tick_intState hne
    exact .inl ⟨hn, hp, hen, .inl ⟨rfl, hx⟩⟩
  | reset => exact .inr (.inr (.inr ⟨rfl, .inl rfl⟩))
  | ack _ _ _ _ ho hp => exact .inr (.inl ⟨hp, rfl, ho⟩)
  | reti _ _ _ _ ho ha => exact .inr (.inr (.inl ⟨ha, rfl, ho⟩))

/-- A channel is in service after an operation only if it was, or by an acknowledge of its chip. -/
theorem ChannelStep.asserted_cases {o : Instr} {k : Nat} {i : ChanIx} {d : Channel}
    (h : ChannelStep p o k i c d) (hd : d.intState = .asserted) :
    c.intState = .asserted ∨ o = .ack k ∨ ∃ cs, o = .chainAck cs ∧ k ∈ cs := by
  by_cases hne : d.intState = c.intState
  · exact .inl (hne.symm.trans hd)
  · obtain ⟨-, hp, -⟩ | ⟨-, -, ho⟩ | ⟨-, hn, -⟩ | ⟨hn, -⟩ := h.intState_cases hne
    · cases hp.symm.trans hd
    · exact .inr ho
    · cases hn.symm.trans hd
    · cases hn.symm.trans hd

end IntState

/-! ### The invariant of a chip and of the machine -/

section Machine

variable {p : Params} {o : Instr} {k : Nat}

/-- Every operation keeps the invariant of a channel that stands at its place. -/
theorem ChannelStep.inv {i : ChanIx} {c d : Channel} (h : ChannelStep p o k i c d)
    (hL : p.cwLayout.wf = true) (hix : c.index = i) (hv : c.Inv p) : d.Inv p := by
  cases h with
  | same => exact hv
  | ctrl _ _ _ _ hd => exact hv.writeCtrl hL hix hd
  | tc _ _ v => exact hv.writeTc v
  | trg _ _ l => exact hv.trg l
  | tick => exact hv.tick
  | reset => exact hv.hwReset
  | ack => exact hv.with_request_and_level .asserted c.extLevel
  | reti => exact hv.with_request_and_level .none c.extLevel

/-- At most one channel of a chip is in service after an operation if at most one was: `ACK` takes a channel only where none is (R27 clause 3, R136). -/
theorem ChipStep.asserted_unique {c d : Chip} (h : ChipStep p o k c d)
    (hu : ∀ i j : ChanIx, (c.chan i).intState = .asserted → (c.chan j).intState = .asserted → i = j)
    (i j : ChanIx) (hi : (d.chan i).intState = .asserted) (hj : (d.chan j).intState = .asserted) :
    i = j := by
  have hci := (h.channel i).asserted_cases hi
  have hcj := (h.channel j).asserted_cases hj
  cases h with
  | same => exact hu i j hi hj
  | ack _ _ n c _ hp _ =>
    obtain ⟨hnone, -⟩ := (c.localStatus_pending p).1 hp
    have honly : ∀ m : ChanIx,
        ((c.updCh n fun x => { x with intState := .asserted }).chan m).intState = .asserted →
        m = n := fun m hm => by
      by_contra hne
      rw [Chip.updCh_chan_ne n m _ c hne] at hm
      exact c.anyAsserted_eq_false_iff.1 hnone m hm
    exact (honly i hi).trans (honly j hj).symm
  | reti _ _ _ _ ho =>
    have hno : ¬ (o = .ack k ∨ ∃ cs, o = .chainAck cs ∧ k ∈ cs) := by
      obtain rfl | ⟨cs, rfl, -⟩ := ho <;> simp
    exact hu i j (hci.resolve_right hno) (hcj.resolve_right hno)
  | _ => exact hu i j (hci.resolve_right (by simp)) (hcj.resolve_right (by simp))

/-- Of a power-on channel, the recorded level may be any. -/
theorem Channel.FreshButLevel.with_level {i : ChanIx} {c : Channel} (h : c.FreshButLevel p i)
    (l : Level) : { c with extLevel := l }.FreshButLevel p i :=
  congrArg (fun x : Channel => { x with extLevel := l }) h

/-- Before its first `RESET` a chip keeps its power-on channels, but for the recorded level (R27 clause 8). -/
theorem ChipStep.fresh {c d : Chip} (h : ChipStep p o k c d) (hv : c.Inv p)
    (hd : d.inited = false) (i : ChanIx) : (d.chan i).FreshButLevel p i := by
  have ⟨_, _, hfresh⟩ := hv
  cases h with
  | same => exact hfresh hd i
  | vec _ _ _ hi => cases hi.symm.trans hd
  | ctrl _ _ _ _ hi => cases hi.symm.trans hd
  | tc _ _ _ _ hi => cases hi.symm.trans hd
  | trg _ n l =>
    obtain ⟨hstop, -⟩ := hv.chan_of_not_inited hd i
    rw [Chip.updCh_chan]
    split
    · rw [Channel.trg_of_stopped p l hstop]
      exact (hfresh hd i).with_level l
    · exact hfresh hd i
  | tick =>
    obtain ⟨hstop, -⟩ := hv.chan_of_not_inited hd i
    rw [Chip.mapCh_chan, Channel.tick_of_not_ticking (by simp [hstop])]
    exact hfresh hd i
  | reset => cases hd
  | ack _ _ _ _ _ hp => cases hp.symm.trans (hv.localStatus_of_not_inited hd)
  | reti _ _ n _ _ hn =>
    obtain ⟨hs, -⟩ := (c.serviceChannel_some n).1 hn
    obtain ⟨-, -, hnone⟩ := hv.chan_of_not_inited hd n
    cases hs.symm.trans hnone

/-- Every operation keeps the invariant of a chip, under a legal layout. -/
theorem ChipStep.inv {c d : Chip} (h : ChipStep p o k c d) (hL : p.cwLayout.wf = true)
    (hv : c.Inv p) : d.Inv p := by
  obtain ⟨hchan, hunique, -⟩ := id hv
  refine ⟨fun i => ?_, h.asserted_unique hunique, h.fresh hv⟩
  obtain ⟨hci, hix⟩ := hchan i
  exact ⟨(h.channel i).inv hL hix hci, (h.channel i).writes.index.trans hix⟩

/-- A completed operation leaves the parameters as they are. -/
theorem exec_params {s t : State} (h : exec o s = .next t) : t.params = s.params := by
  obtain ⟨r, rfl⟩ | ⟨k, -, c, d, r, -, rfl, -⟩ := exec_next h <;> rfl

/-- Every operation that completes keeps the invariant of the machine. -/
theorem exec_inv {s t : State} (h : exec o s = .next t) (hv : s.Inv) : t.Inv := by
  obtain ⟨hp, hchips⟩ := hv
  refine ⟨exec_params h ▸ hp, ?_⟩
  obtain ⟨r, rfl⟩ | ⟨k, -, c, d, r, hc, rfl, hstep⟩ := exec_next h
  · exact hchips
  · intro x hx
    obtain hx | rfl := List.mem_or_eq_of_mem_set hx
    · exact hchips x hx
    · exact hstep.inv (Params.wf_cwLayout hp) (hchips c (List.mem_of_getElem? hc))

/-- A step that answers a next state is idle or an operation that completes, in the state with a request taken off. -/
theorem step_next {s t : State} (h : step s = .next t) :
    t = s ∨ ∃ o rest, exec o { s with requests := rest } = .next t := by
  obtain ⟨-, he⟩ | ⟨r, rest, -, he⟩ := step_cases s
  · cases he.symm.trans h
    exact .inl rfl
  · exact .inr ⟨_, rest, he.symm.trans h⟩

end Machine

/-! ### The statements -/

/-- Settles O46: one operation keeps the invariant of each channel (`ChannelStep.inv`), of the chip it writes (`ChipStep.inv`) and so of the machine, and the list of requests is no part of it. -/
theorem stepKeepsInvariant : Obligations.StepKeepsInvariant := by
  intro s t hv h
  obtain rfl | ⟨o, rest, he⟩ := step_next h
  · exact hv
  · exact exec_inv he hv

/-- Settles O4: an operation answers a state with one chip put back or with the answer alone. -/
theorem parametersAreFixed : Obligations.ParametersAreFixed := by
  intro s t h
  obtain rfl | ⟨o, rest, he⟩ := step_next h
  · rfl
  · exact exec_params (s := { s with requests := rest }) he

/-- Settles O49: the transitions are those of the ways in which an operation can write a channel. -/
theorem interruptStateTransitions : Obligations.InterruptStateTransitions := by
  intro s t o k c d i h hc hd hne
  exact (exec_channel h hc hd i).intState_cases hne

/-- Settles O48: the channel's fields by `ChannelStep.writes`, the chip's own two by the ways in which an operation can write a chip. -/
theorem whoWritesWhat : Obligations.WhoWritesWhat := by
  intro s t o k c d i h hc hd
  obtain ⟨hindex, hmode, hawait, htc, hdown, hpsc, hrun, hext, hzc⟩ := (exec_channel h hc hd i).writes
  refine ⟨hindex, hmode, hawait, htc, hdown, hpsc, hrun, hext, hzc, ?vector, ?inited⟩
  case vector => cases exec_chip h hc hd <;> simp
  case inited => cases exec_chip h hc hd <;> simp

/-- Settles O50: a completed operation puts back one chip that it names, or only answers. -/
theorem chipsShareNoState : Obligations.ChipsShareNoState := by
  intro s t o h
  obtain ⟨r, rfl⟩ | ⟨k, hk, c, d, r, -, rfl, -⟩ := exec_next h
  · exact .inl ⟨rfl, rfl, rfl⟩
  · exact .inr ⟨k, hk, s.put_onlyChip k d r⟩

end Sys2Proof.Machine
end

section
/-! The encoder and the decoder are inverse (spec/30_encoding.md R61 to R67), and what stands in a word at the default layout. -/

namespace Sys2Proof

/-! ### Round trips -/

section RoundTrip

variable {p : Params}

/-- A well-formed operation is what its encoding decodes to in the situation that selects it (R61). -/
theorem decode_encode {i : Instr} (hL : p.cwLayout.wf = true) (hi : i.wellFormed = true) :
    decode (awaitFor i) (encode i p) p = i := by
  cases i with
  | wrVec k v =>
    calc decodeWrite p k 0 false (evenByte v)
      _ = .wrVec k (upperBits (evenByte v)) := decodeWrite_even p k 0 _ (evenByte_bit0 v)
      _ = .wrVec k v := by rw [upperBits_evenByte]
  | wrCtrl k a w =>
    calc decodeWrite p k a false (w.toByte p.cwLayout)
      _ = .wrCtrl k a (ControlWord.ofByte (w.toByte p.cwLayout) p.cwLayout) :=
        decodeWrite_odd p k a _ (w.toByte_bit0 p.cwLayout)
      _ = .wrCtrl k a w := by rw [ControlWord.ofByte_toByte w _ hL]
  | wrTc k a v => exact decodeWrite_awaiting p k a v
  | wrIgn k a x =>
    have ha : a ≠ 0 := of_decide_eq_true hi
    calc decodeWrite p k a false (evenByte x)
      _ = .wrIgn k a (upperBits (evenByte x)) :=
        (decodeWrite_even p k a _ (evenByte_bit0 x)).trans (if_neg ha)
      _ = .wrIgn k a x := by rw [upperBits_evenByte]
  | _ => rfl

/-- What a written byte decodes to encodes to that byte in its slot, and is well formed (R61, R67). -/
theorem decodeWrite_encode (hL : p.cwLayout.wf = true) (k : Nat) (a : ChanIx) (awaitTc : Bool)
    (b : Byte) : encode (decodeWrite p k a awaitTc b) p = .wr k a b ∧
      (decodeWrite p k a awaitTc b).wellFormed = true := by
  cases awaitTc with
  | true => rw [decodeWrite_awaiting]; exact ⟨rfl, rfl⟩
  | false =>
    cases hb : b[0] with
    | true =>
      rw [decodeWrite_odd p k a b hb]
      exact ⟨congrArg (Request.wr k a) (ControlWord.toByte_ofByte b _ hL hb), rfl⟩
    | false =>
      rw [decodeWrite_even p k a b hb]
      have heven := evenByte_upperBits b hb
      by_cases ha : a = 0
      · rw [if_pos ha, ha]
        exact ⟨congrArg (Request.wr k 0) heven, rfl⟩
      · rw [if_neg ha]
        exact ⟨congrArg (Request.wr k a) heven, decide_eq_true ha⟩

end RoundTrip

/-- Settles O36: the decoder recovers each of two operations of one situation from their encodings, which are one request. -/
theorem decodeOfEncode : Obligations.DecodeOfEncode := by
  intro p i hL hi
  refine ⟨decode_encode hL hi, fun j hj hsit henc => ?_⟩
  calc j
    _ = decode (awaitFor j) (encode j p) p := (decode_encode hL hj).symm
    _ = decode (awaitFor i) (encode i p) p := by rw [hsit, henc]
    _ = i := decode_encode hL hi

/-- Settles O37: a write is `decodeWrite_encode`; every other request is its own operation, a chain being well formed exactly without repeats. -/
theorem encodeOfDecode : Obligations.EncodeOfDecode := by
  intro p awaitTc r hL
  cases r with
  | wr k a b =>
    obtain ⟨henc, hwf⟩ := decodeWrite_encode hL k a awaitTc b
    exact ⟨henc, fun _ => hwf⟩
  | chainIrq cs => exact ⟨rfl, fun h => decide_eq_true (h cs (.inl rfl))⟩
  | chainAck cs => exact ⟨rfl, fun h => decide_eq_true (h cs (.inr (.inl rfl)))⟩
  | chainReti cs => exact ⟨rfl, fun h => decide_eq_true (h cs (.inr (.inr rfl)))⟩
  | _ => exact ⟨rfl, fun _ => rfl⟩

/-! ### The default layout -/

/-- Settles O39: the eight bits of an assembled word are `ControlWord.toByte_bits`. -/
theorem controlWordLayout : Obligations.ControlWordLayout := by
  intro w
  obtain ⟨h0, h1, h2, h3, h4, h5, h6, h7⟩ := w.toByte_bits
  exact ⟨_, rfl, h7, h6, h5, h4, h3, h2, h1, h0⟩

/-- Settles O40: each accessor is a field of the word that `mode` holds, and each field of a word is its bit. -/
theorem modeAccessors : Obligations.ModeAccessors := by
  rintro p c rfl
  refine ⟨ControlWord.ofByte_intEn _, ControlWord.ofByte_counter _,
    ⟨ControlWord.ofByte_prescale256 _, ?factor⟩, ControlWord.ofByte_rising _,
    ⟨ControlWord.ofByte_trigger _, ?trigger⟩, ControlWord.ofByte_follows _,
    ControlWord.ofByte_swReset _⟩
  case factor =>
    rw [← ControlWord.ofByte_prescale256]
    exact c.prescale_eq _
  case trigger =>
    have hmem : c.index ∈ Config.params.trigChannels ↔ c.index = 0 := List.mem_singleton
    rw [Machine.Channel.trig_eq, ← ControlWord.ofByte_trigger]
    exact congrArg (_ && ·) (decide_eq_decide.2 hmem)

/-- Settles O41: each byte is decoded by its row of R61, by evaluation. -/
theorem sampleWordsDecode : Obligations.SampleWordsDecode := by
  unfold Obligations.SampleWordsDecode
  decide

/-- Settles O3: the defaults are what the record `Params` names, and both start states take the parameters they are given. -/
theorem parameterDefaults : Obligations.ParameterDefaults :=
  ⟨rfl, rfl, rfl, rfl, rfl, rfl, rfl, rfl, fun _ => rfl⟩

end Sys2Proof
end

section
/-! Start states (spec/70_reset_and_hazards.md R190, R192) and the invariants there. -/

namespace Sys2Proof.Machine

/-! ### The chips at power-on and after one reset -/

theorem Chip.powerOn_chan (p : Params) (draw : Byte) (i : ChanIx) :
    (Chip.powerOn p draw).chan i = Channel.powerOn p i := by
  match i with
  | 0 => rfl
  | 1 => rfl
  | 2 => rfl
  | 3 => rfl

/-- The model's chip after a reset is `RESET` of its chip at power-on (R192). -/
theorem Chip.hwReset_powerOn (p : Params) (draw : Byte) :
    (Chip.powerOn p draw).hwReset = Chip.afterReset p draw := rfl

/-- Chip `k` of the power-on state is drawn for itself (R24, R190). -/
theorem State.powerOn_chip {n k : Nat} (p : Params) (draw : Nat → Byte) (hk : k < n) :
    (State.powerOn n p draw).chips[k]? = some (Chip.powerOn p (draw k)) := by
  simp [State.powerOn, hk]

/-- Nothing requests at power-on. -/
theorem Chip.localStatus_powerOn (p : Params) (draw : Byte) :
    (Chip.powerOn p draw).localStatus p = .none :=
  Chip.localStatus_none_of_intState fun i => by rw [Chip.powerOn_chan]; rfl

/-! ### The invariants -/

theorem Channel.powerOn_inv {p : Params} (h : p.wf = true) (i : ChanIx) :
    (Channel.powerOn p i).Inv p := by
  obtain ⟨-, hcount⟩ := p.wf_iff.1 h
  exact ⟨hcount, ⟨hcount.1, le_refl _⟩, nofun, fun _ => Channel.prescale_pos p _, marker_resetMode⟩

theorem Chip.powerOn_inv {p : Params} (h : p.wf = true) (draw : Byte) :
    (Chip.powerOn p draw).Inv p := by
  refine ⟨fun i => ?channel, fun i j hi => ?unique, fun _ i => ?fresh⟩
  case channel => rw [Chip.powerOn_chan]; exact ⟨Channel.powerOn_inv h i, rfl⟩
  case unique => rw [Chip.powerOn_chan] at hi; cases hi
  case fresh => rw [Chip.powerOn_chan]

/-- `RESET` keeps the invariant, so it holds after the first one. -/
theorem Chip.afterReset_inv {p : Params} (h : p.wf = true) (draw : Byte) :
    (Chip.afterReset p draw).Inv p := by
  rw [← Chip.hwReset_powerOn]
  exact (ChipStep.reset 0 _).inv (Params.wf_cwLayout h) (Chip.powerOn_inv h draw)

theorem State.resetOf_inv {p : Params} (h : p.wf = true) (n : Nat) (draw : Nat → Byte) :
    (State.resetOf n p draw).Inv :=
  ⟨h, List.forall_mem_map.2 fun k _ => Chip.afterReset_inv h (draw k)⟩

/-! ### The statements -/

/-- Settles O47: every chip of the start states is one at power-on, or that chip reset once. -/
theorem invariantAtStart : Obligations.InvariantAtStart :=
  ⟨State.resetOf_inv rfl _ _, fun n _ draw hp =>
    ⟨⟨hp, List.forall_mem_map.2 fun k _ => Chip.powerOn_inv hp (draw k)⟩,
      State.resetOf_inv hp n draw⟩⟩

/-- Settles O1: the chip is `Chip.powerOn`, whose status is NONE, and the two observations answer its status and its count. -/
theorem powerOnState : Obligations.PowerOnState := by
  intro n p draw k hk
  have hc := State.powerOn_chip p draw hk
  have hstatus := Chip.localStatus_powerOn p (draw k)
  refine ⟨_, hc, rfl, rfl, fun i => Chip.powerOn_chan p (draw k) i, Chip.intOut_of_none hstatus,
    fun iei => Chip.ieo_of_none iei hstatus, fun iei => ?status,
    fun i => ⟨_, completes_chip (exec_rd k i _) hc, ?count, fun hp => ?defaults⟩⟩
  case status =>
    have hfor := Chip.statusFor_of_none iei hstatus
    exact hfor ▸ completes_chip (exec_status k iei _) hc
  case count => rw [Channel.readByte_toNat, Chip.powerOn_chan]; rfl
  case defaults =>
    rw [Chip.powerOn_chan, hp]
    exact (rfl : BitVec.ofNat 8 256 = 0x00#8)

/-- Settles O2: the three resets by evaluation, each of them `Chip.hwReset_powerOn`. -/
theorem resetStateIsPowerOnThenReset : Obligations.ResetStateIsPowerOnThenReset :=
  ⟨fun _ _ => rfl, rfl, rfl, rfl⟩

end Sys2Proof.Machine
end

section
/-! A step as one decoded operation (spec/20_memory.md R48, R51), and the byte after a control word (R195). -/

namespace Sys2Proof.Machine

section Step

variable {s t : State} {r : Request} {rest : List Request}

/-- A step runs the next request, decoded in the state it meets. -/
theorem step_of_requests (h : s.requests = r :: rest) :
    step s = exec (decode (s.awaits r) r s.params) { s with requests := rest } := by
  rw [step, h]

theorem step_idle (h : s.requests = []) : step s = .next s := by
  rw [step, h]

/-- A write to a chip that is present is decoded under the flag of the slot it goes to (R51). -/
theorem State.awaits_wr {k : Nat} {c : Chip} (hc : s.chips[k]? = some c) (a : ChanIx) (b : Byte) :
    s.awaits (.wr k a b) = (c.chan a).awaitTc := by
  simp only [State.awaits, State.chip?_eq, hc]

/-- Where the table's item is placed, its slot awaits nothing, whether or not the chip is present. -/
theorem awaits_idleSlot0 (s : State) (rs : List Request) (b : Byte) :
    { s with chips := idleSlot0 s.chips, requests := rs }.awaits (.wr 0 0 b) = false := by
  cases h : s.chips with
  | nil => rfl
  | cons c cs => exact congrArg Channel.awaitTc (c.updCh_chan_self 0 _)

/-- A control word that completes has met a chip that has been reset, and written its channel. -/
theorem wrCtrl_next {k : Nat} {i : ChanIx} {w : ControlWord} {c : Chip}
    (h : exec (.wrCtrl k i w) s = .next t) (hc : s.chips[k]? = some c) :
    c.inited = true ∧ OnlyChip k s t ∧
      t.chips[k]? = some (c.updCh i (Channel.writeCtrl s.params w)) := by
  obtain ⟨c', d, r, hc', hf, rfl⟩ := onChip_next h
  cases hc.symm.trans hc'
  obtain ⟨hi, hf⟩ := hostWrite_next hf
  split at hf
  · cases hf
  · cases hf
    exact ⟨hi, s.put_onlyChip k _ _, (s.put_getElem? k c _ _ k hc).trans (if_pos rfl)⟩

end Step

/-! ### The statements -/

/-- Settles O42: the two branches of `step`, and the flag that a write's decoding reads. -/
theorem stepRunsDecoded : Obligations.StepRunsDecoded :=
  ⟨fun _ _ _ => step_of_requests, fun _ _ _ a b hc => State.awaits_wr hc a b, fun _ => step_idle⟩

/-- Settles O43: the placed item is the next request, its slot awaits nothing, and placing it leaves the parameters. -/
theorem fetchWordRuns : Obligations.FetchWordRuns := by
  rintro s t w rfl
  have hstep : step (s.withFetchWord 8 w) =
      exec (decode false (.wr 0 0 (BitVec.ofNat 8 w)) s.params)
        { s.withFetchWord 8 w with requests := s.requests } := by
    rw [step_of_requests rfl, State.withFetchWord, if_pos rfl, awaits_idleSlot0]
  refine ⟨hstep, fun i hp hi => ?_⟩
  cases hi
  rw [hstep, hp]

/-- Settles O45: the control word sets the flag of its own channel, under which the next byte is a time constant, on slot 0 too. -/
theorem nextByteIsConstant : Obligations.NextByteIsConstant := by
  intro s t k c a b v rest hr hc hw hb hF h
  rw [step_wr hr hc, hw, decodeWrite_odd _ _ _ _ hb] at h
  obtain ⟨hi, ⟨-, hreq, -⟩, hd⟩ := wrCtrl_next h hc
  have hawait : ((c.updCh a (Channel.writeCtrl s.params
      (ControlWord.ofByte b s.params.cwLayout))).chan a).awaitTc = true := by
    rw [Chip.updCh_chan_self, Channel.writeCtrl_awaitTc, hF]
  obtain ⟨u, hu, he, ⟨-, hrest, -⟩, -⟩ :=
    completes_write (exec_wrTc k a v { t with requests := rest }) hd hi
  refine ⟨u, _, ?step, hrest, he, ?_⟩
  case step => rw [step_wr hreq hd, hawait, decodeWrite_awaiting, hu]
  rw [Chip.updCh_chan_self]
  refine ⟨rfl, rfl, ?started, rfl⟩
  rw [Channel.writeTc_run_eq]
  split <;> decide

end Sys2Proof.Machine
end

section
/-! An operation sees the chips it names alone (spec/20_memory.md R47, spec/60_exceptions.md R171, R174). -/

namespace Sys2Proof.Machine

/-! ### Outcomes that agree on some chips -/

/-- The same stop, or next states with the same answer and the same chips under the numbers `ks`. -/
inductive AgreeOn (ks : List Nat) :
    Host.Outcome State Fault Refusal → Host.Outcome State Fault Refusal → Prop where
  | next {t t' : State} (hr : t'.result = t.result)
      (hc : ∀ k ∈ ks, t'.chips[k]? = t.chips[k]?) : AgreeOn ks (.next t) (.next t')
  | fault (f : Fault) : AgreeOn ks (.fault f) (.fault f)
  | refused (r : Refusal) : AgreeOn ks (.refused r) (.refused r)

section Agree

variable {s s' : State} {ks : List Nat}

/-- Where a chain's members are the same chips, the chain has the same members. -/
theorem State.members?_congr (h : ∀ k ∈ ks, s'.chips[k]? = s.chips[k]?) :
    s'.members? ks = s.members? ks := by
  induction ks with
  | nil => rfl
  | cons k ks ih =>
    obtain ⟨hk, hks⟩ := List.forall_mem_cons.1 h
    rw [State.members?, State.members?, State.chip?_eq, State.chip?_eq, hk, ih hks]

/-- An operation on a chip among those that agree has outcomes that agree on them. -/
theorem onChip_agree {k : Nat} (f : Chip → Effect) (h : ∀ j ∈ ks, s'.chips[j]? = s.chips[j]?)
    (hk : k ∈ ks) : AgreeOn ks (onChip k f s) (onChip k f s') := by
  cases hc : s.chips[k]? with
  | none =>
    rw [onChip_absent k f s hc, onChip_absent k f s' ((h k hk).trans hc)]
    exact .refused _
  | some c =>
    have hc' : s'.chips[k]? = some c := (h k hk).trans hc
    rw [onChip_of k f s c hc, onChip_of k f s' c hc']
    cases f c with
    | next x =>
      refine .next rfl fun j hj => ?_
      rw [State.put_getElem? s k c x.1 x.2 j hc, State.put_getElem? s' k c x.1 x.2 j hc', h j hj]
    | fault e => exact .fault e
    | refused e => exact .refused e

/-- A chain operation has agreeing outcomes where its meaning on the members has. -/
theorem onChain_agree {cs : List Nat}
    {f f' : List (Nat × Chip) → State → Host.Outcome State Fault Refusal}
    (h : ∀ k ∈ cs, s'.chips[k]? = s.chips[k]?)
    (hf : ∀ ms, s.members? cs = some ms → AgreeOn ks (f ms s) (f' ms s')) :
    AgreeOn ks (onChain cs f s) (onChain cs f' s') := by
  rw [onChain, onChain, State.members?_congr h]
  cases hm : s.members? cs with
  | none => exact .refused _
  | some ms => exact hf ms hm

/-- An operation is a chain's, or one chip operation, the same in every state with the same parameters. -/
theorem exec_onChip_or_chain (hp : s'.params = s.params) (o : Instr) :
    (∃ k f, chipOperands o = [k] ∧ exec o s = onChip k f s ∧ exec o s' = onChip k f s') ∨
    ∃ cs, o = .chainIrq cs ∨ o = .chainAck cs ∨ o = .chainReti cs := by
  cases o with
  | wrVec k v => exact .inl ⟨k, _, rfl, exec_wrVec k v s, exec_wrVec k v s'⟩
  | wrCtrl k i w => exact .inl ⟨k, _, rfl, exec_wrCtrl k i w s, hp ▸ exec_wrCtrl k i w s'⟩
  | wrTc k i v => exact .inl ⟨k, _, rfl, exec_wrTc k i v s, hp ▸ exec_wrTc k i v s'⟩
  | wrIgn k i x => exact .inl ⟨k, _, rfl, exec_wrIgn k i x s, exec_wrIgn k i x s'⟩
  | rd k i => exact .inl ⟨k, _, rfl, exec_rd k i s, exec_rd k i s'⟩
  | trg k i l => exact .inl ⟨k, _, rfl, exec_trg k i l s, hp ▸ exec_trg k i l s'⟩
  | tick k => exact .inl ⟨k, _, rfl, exec_tick k s, hp ▸ exec_tick k s'⟩
  | reset k => exact .inl ⟨k, _, rfl, exec_reset k s, exec_reset k s'⟩
  | status k iei => exact .inl ⟨k, _, rfl, exec_status k iei s, hp ▸ exec_status k iei s'⟩
  | ack k => exact .inl ⟨k, _, rfl, exec_ack k s, hp ▸ exec_ack k s'⟩
  | reti k => exact .inl ⟨k, _, rfl, exec_reti k s, exec_reti k s'⟩
  | chainIrq cs => exact .inr ⟨cs, .inl rfl⟩
  | chainAck cs => exact .inr ⟨cs, .inr (.inl rfl)⟩
  | chainReti cs => exact .inr ⟨cs, .inr (.inr rfl)⟩

/-- An operation has agreeing outcomes in states that agree on the chips it names: the chip that a chain's operation goes on to is one of them (R142, R143). -/
theorem exec_agree (o : Instr) (hp : s'.params = s.params)
    (h : ∀ k ∈ chipOperands o, s'.chips[k]? = s.chips[k]?) :
    AgreeOn (chipOperands o) (exec o s) (exec o s') := by
  obtain ⟨k, f, ho, hs, hs'⟩ | ⟨cs, rfl | rfl | rfl⟩ := exec_onChip_or_chain hp o
  · rw [hs, hs']
    exact onChip_agree f h (ho ▸ List.mem_singleton_self k)
  · rw [exec_chainIrq, exec_chainIrq]
    refine onChain_agree h fun ms _ => ?_
    rw [hp]
    exact .next rfl h
  · rw [exec_chainAck, exec_chainAck]
    refine onChain_agree h fun ms hm => ?_
    rw [hp]
    cases hk : chainRequester s.params ms with
    | none => exact .fault _
    | some k =>
      obtain ⟨c, hc, -⟩ := chainRequester_mem hk
      exact onChip_agree _ h (State.mem_members hm hc).1
  · rw [exec_chainReti, exec_chainReti]
    refine onChain_agree h fun ms hm => ?_
    cases hk : chainInService ms with
    | none => exact .next rfl h
    | some k =>
      obtain ⟨c, hc, -⟩ := chainInService_mem hk
      exact onChip_agree _ h (State.mem_members hm hc).1

end Agree

/-! ### The pure observations (R44) and the absent chip -/

section Observe

variable {s t : State}

/-- An operation on one chip that leaves every chip as it is only answers. -/
theorem onChip_observes {k : Nat} {r : Chip → Result}
    (h : onChip k (completes (fun c => c) r) s = .next t) : ∃ x, t = s.answer x := by
  obtain ⟨c, d, x, hc, hf, rfl⟩ := onChip_next h
  cases hf
  exact ⟨_, s.put_same k c _ hc⟩

/-- `RD`, `STATUS` and `CHAIN.IRQ` only answer (R44). -/
theorem observation_answers {o : Instr}
    (ho : (∃ k a, o = .rd k a) ∨ (∃ k iei, o = .status k iei) ∨ ∃ cs, o = .chainIrq cs)
    (h : exec o s = .next t) : ∃ x, t = s.answer x := by
  obtain ⟨k, a, rfl⟩ | ⟨k, iei, rfl⟩ | ⟨cs, rfl⟩ := ho
  · exact onChip_observes (exec_rd k a s ▸ h)
  · exact onChip_observes (exec_status k iei s ▸ h)
  · rw [exec_chainIrq] at h
    obtain ⟨ms, -, h⟩ := onChain_next h
    cases h
    exact ⟨_, rfl⟩

/-- A chain that names an absent chip is refused. -/
theorem onChain_absent {cs : List Nat} {k : Nat} (hk : k ∈ cs) (ha : s.chips.length ≤ k)
    (f : List (Nat × Chip) → State → Host.Outcome State Fault Refusal) :
    onChain cs f s = .refused .noSuchChip := by
  have hm : s.members? cs = none := by
    rw [← Option.not_isSome_iff_eq_none, State.members?_isSome]
    exact fun hall => absurd (hall k hk) (Nat.not_lt.2 ha)
  rw [onChain, hm]

end Observe

/-! ### The statements -/

/-- Settles O51: the clauses are the three ways in which outcomes agree. -/
theorem outcomeDependsOnNamedChips : Obligations.OutcomeDependsOnNamedChips := by
  intro s s' o hp h
  have hagree := exec_agree o hp h
  generalize exec o s' = x at hagree ⊢
  refine ⟨fun t ht => ?next, fun f hf => ?fault, fun r hr => ?refused⟩
  case next =>
    rw [ht] at hagree
    cases hagree with
    | next hr hc => exact ⟨_, rfl, hr, hc⟩
  case fault =>
    rw [hf] at hagree
    cases hagree
    rfl
  case refused =>
    rw [hr] at hagree
    cases hagree
    rfl

/-- Settles O12: an observation only answers, so it meets the same chips again and answers the same. -/
theorem observationsChangeNothing : Obligations.ObservationsChangeNothing := by
  intro s t o ho h
  obtain ⟨x, rfl⟩ := observation_answers ho h
  obtain ⟨hnext, -⟩ := outcomeDependsOnNamedChips s (s.answer x) o rfl fun _ _ => rfl
  obtain ⟨u, hu, hresult, -⟩ := hnext _ h
  exact ⟨rfl, rfl, u, hu, hresult⟩

/-- Settles O35: the chip of an operation on one chip, or a member of a chain, is not found. -/
theorem absentChipRefused : Obligations.AbsentChipRefused := by
  rintro s o ⟨k, hk, ha⟩
  obtain ⟨j, f, ho, hs, -⟩ | ⟨cs, rfl | rfl | rfl⟩ := exec_onChip_or_chain (s := s) rfl o
  · obtain rfl : k = j := List.mem_singleton.1 (ho ▸ hk)
    rw [hs, onChip_absent k f s (List.getElem?_eq_none ha)]
  · exact (exec_chainIrq cs s).trans (onChain_absent (cs := cs) hk ha _)
  · exact (exec_chainAck cs s).trans (onChain_absent (cs := cs) hk ha _)
  · exact (exec_chainReti cs s).trans (onChain_absent (cs := cs) hk ha _)

end Sys2Proof.Machine
end

section
/-! The laws of the two countdown modes for any number of events (spec/41_countdown.md R104, R108, R110). -/

namespace Sys2Proof.Machine

/-! ### Counting in rounds -/

/-- Where a round of `T` ends, the next number begins a new one. -/
theorem succ_of_round_end {n T : Nat} (hT : 1 ≤ T) (h : n % T + 1 = T) :
    (n + 1) / T = n / T + 1 ∧ (n + 1) % T = 0 := by
  refine (Nat.div_mod_unique hT).2 ⟨?_, hT⟩
  have hn := Nat.div_add_mod n T
  rw [Nat.mul_add_one]
  omega

/-- Within a round of `T`, the next number is one place further. -/
theorem succ_of_within_round {n T : Nat} (h : n % T + 1 < T) :
    (n + 1) / T = n / T ∧ (n + 1) % T = n % T + 1 := by
  refine (Nat.div_mod_unique (by omega)).2 ⟨?_, h⟩
  have hn := Nat.div_add_mod n T
  omega

/-- The next number begins a round exactly where this one ends one. -/
theorem succ_mod_eq_zero_iff {n T : Nat} (hT : 1 ≤ T) : (n + 1) % T = 0 ↔ n % T + 1 = T := by
  refine ⟨fun h => ?_, fun h => (succ_of_round_end hT h).2⟩
  by_contra hne
  have hlt := Nat.mod_lt n hT
  have hnext := (succ_of_within_round (n := n) (T := T) (by omega)).2
  omega

/-- A round of `P * T` ends exactly where one of `P` does, and its number ends one of `T`. -/
theorem succ_mod_mul_eq_zero_iff {t P T : Nat} (hP : 1 ≤ P) (hT : 1 ≤ T) :
    (t + 1) % (P * T) = 0 ↔ t % P + 1 = P ∧ t / P % T + 1 = T := by
  rw [Nat.mod_mul, Nat.add_eq_zero_iff, succ_mod_eq_zero_iff hP, Nat.mul_eq_zero,
    or_iff_right (by omega)]
  refine and_congr_right fun h => ?_
  rw [(succ_of_round_end hP h).1, succ_mod_eq_zero_iff hT]

/-- One more round toggles the level once more. -/
theorem toggle_succ (b : Level) (q : Nat) :
    (if (q + 1) % 2 = 0 then b else !b) = !(if q % 2 = 0 then b else !b) := by
  obtain h | h := Nat.mod_two_eq_zero_or_one q <;> simp [Nat.add_mod, h]

/-! ### A channel after a number of decrements -/

/-- `d` is the armed channel `c`, loaded with `T`, after `n` decrements: the counter runs from `T` down to 1, and the output toggles once a round. -/
structure CountedFrom (c : Channel) (T n : Nat) (d : Channel) : Prop where
  mode : d.mode = c.mode
  tc : d.tc = T
  run : d.run = .armed
  down : d.down = T - n % T
  zc : d.zc = if (n / T) % 2 = 0 then c.zc else !c.zc

section Counted

variable {p : Params} {c d : Channel} {T n : Nat}

/-- A channel that has just been loaded has counted nothing. -/
theorem CountedFrom.zero (htc : c.tc = T) (hdown : c.down = T) (hrun : c.run = .armed) :
    CountedFrom c T 0 c :=
  ⟨rfl, htc, hrun, by rw [hdown, Nat.zero_mod, Nat.sub_zero], by rw [Nat.zero_div]; rfl⟩

/-- The counter is at 1 exactly at the end of a round. -/
theorem CountedFrom.down_last_iff (h : CountedFrom c T n d) (hT : 1 ≤ T) :
    d.down - 1 = 0 ↔ n % T + 1 = T := by
  have hlt := Nat.mod_lt n hT
  rw [h.down]
  omega

/-- A countdown leaves the control word as it is. -/
theorem CountedFrom.cw (h : CountedFrom c T n d) : d.cw p = c.cw p := by
  rw [Channel.cw_eq, Channel.cw_eq, h.mode]

theorem CountedFrom.counter (h : CountedFrom c T n d) : d.counter p = c.counter p :=
  congrArg ControlWord.counter h.cw

theorem CountedFrom.rising (h : CountedFrom c T n d) : d.rising p = c.rising p :=
  congrArg ControlWord.rising h.cw

theorem CountedFrom.prescale (h : CountedFrom c T n d) : d.prescale p = c.prescale p := by
  rw [Channel.prescale, h.cw, Channel.prescale]

/-- A decrement counts one more. -/
theorem CountedFrom.decrement (h : CountedFrom c T n d) (hT : 1 ≤ T) :
    CountedFrom c T (n + 1) (d.decrement p) := by
  have hlast := h.down_last_iff hT
  obtain ⟨hmode, htc, hrun, hdown, hzc⟩ := h
  obtain ⟨h0, he⟩ | ⟨h0, he⟩ := d.decrement_cases p <;> rw [he]
  · obtain ⟨hdiv, hmod⟩ := succ_of_round_end hT (hlast.1 h0)
    exact ⟨hmode, htc, hrun, by rw [hmod]; exact htc, by rw [hdiv, toggle_succ, ← hzc]⟩
  · have hlt := Nat.mod_lt n hT
    obtain ⟨hdiv, hmod⟩ := succ_of_within_round (n := n) (T := T) (by omega)
    exact ⟨hmode, htc, hrun, by rw [hmod, ← Nat.sub_sub, ← hdown], by rw [hdiv, ← hzc]⟩

/-- The prescaler counter and the recorded level are no part of the count. -/
theorem CountedFrom.with_psc_and_level (h : CountedFrom c T n d) (psc : Nat) (l : Level) :
    CountedFrom c T n { d with psc := psc, extLevel := l } :=
  ⟨h.mode, h.tc, h.run, h.down, h.zc⟩

/-! ### The timer channel and the counter channel -/

/-- `d` is the timer channel `c` after `t` ticks at prescaler `P`. -/
structure TimedFrom (c : Channel) (P T t : Nat) (d : Channel) : Prop where
  counted : CountedFrom c T (t / P) d
  psc : d.psc = t % P

/-- A tick counts in the prescaler, and at the end of its period in the counter (R103). -/
theorem TimedFrom.tick {t : Nat} (h : TimedFrom c (c.prescale p) T t d) (hT : 1 ≤ T)
    (hm : c.counter p = false) : TimedFrom c (c.prescale p) T (t + 1) (d.tick p) := by
  obtain ⟨hcount, hpsc⟩ := h
  have hP := c.prescale_pos p
  have hpre : d.prescale p = c.prescale p := hcount.prescale
  have hdm : d.counter p = false := hcount.counter.trans hm
  by_cases hend : t % c.prescale p + 1 = c.prescale p
  · obtain ⟨hdiv, hmod⟩ := succ_of_round_end hP hend
    rw [Channel.tick_of_psc_eq hdm hcount.run (by rw [hpsc, hpre, hend])]
    refine ⟨hdiv ▸ (hcount.with_psc_and_level 0 d.extLevel).decrement hT, ?_⟩
    obtain ⟨down, zc, st, he⟩ := { d with psc := 0 }.decrement_frame p
    rw [he, hmod]
  · have hlt := Nat.mod_lt t hP
    obtain ⟨hdiv, hmod⟩ := succ_of_within_round (n := t) (T := c.prescale p) (by omega)
    rw [Channel.tick_of_psc_ne hdm hcount.run (by rwa [hpsc, hpre])]
    exact ⟨hdiv ▸ hcount.with_psc_and_level _ d.extLevel, by rw [hmod, ← hpsc]⟩

/-- The next tick is an expiry exactly at the end of a round of `P * T` ticks (R104). -/
theorem TimedFrom.expiresOnTick_iff {t : Nat} (h : TimedFrom c (c.prescale p) T t d) (hT : 1 ≤ T)
    (hm : c.counter p = false) :
    d.expiresOnTick p = true ↔ (t + 1) % (c.prescale p * T) = 0 := by
  obtain ⟨hcount, hpsc⟩ := h
  have hpre : d.prescale p = c.prescale p := hcount.prescale
  have hdm : d.counter p = false := hcount.counter.trans hm
  rw [succ_mod_mul_eq_zero_iff (c.prescale_pos p) hT, ← hcount.down_last_iff hT, ← hpsc, ← hpre,
    Channel.expiresOnTick, Bool.and_eq_true, Bool.and_eq_true, beq_iff_eq, beq_iff_eq,
    and_assoc, and_iff_right ((Channel.ticking_iff p d).2 ⟨hdm, hcount.run⟩)]

/-- A pulse on a counter channel whose input rests at the other level counts once, and the input rests again (R108). -/
theorem CountedFrom.pulse (h : CountedFrom c T n d) (hT : 1 ≤ T) (hm : c.counter p = true)
    (hext : d.extLevel = !c.rising p) :
    CountedFrom c T (n + 1) ((d.trg p (c.rising p)).trg p (!c.rising p)) ∧
      ((d.trg p (c.rising p)).trg p (!c.rising p)).extLevel = !c.rising p := by
  have hedge : d.trg p (c.rising p) = { d with extLevel := c.rising p }.decrement p :=
    Channel.trg_of_counting (by simp [hext]) h.rising.symm h.run (h.counter.trans hm)
  have hcount : CountedFrom c T (n + 1) (d.trg p (c.rising p)) :=
    hedge ▸ (h.with_psc_and_level d.psc (c.rising p)).decrement hT
  have hlevel : (d.trg p (c.rising p)).extLevel = c.rising p := by
    obtain ⟨down, zc, st, he⟩ := { d with extLevel := c.rising p }.decrement_frame p
    rw [hedge, he]
  have hback : (!c.rising p) ≠ (d.trg p (c.rising p)).extLevel := by
    rw [hlevel]
    exact Bool.not_ne_self _
  have haway : (!c.rising p) ≠ (d.trg p (c.rising p)).rising p := by
    rw [hcount.rising]
    exact Bool.not_ne_self _
  rw [Channel.trg_of_ne_rising hback haway]
  exact ⟨hcount.with_psc_and_level _ _, rfl⟩

end Counted

/-! ### Runs of the same operations -/

section Runs

variable {s u : State} {p : Params} {k : Nat} {i : ChanIx}

/-- A run goes on where its first operation completes. -/
theorem runOps_cons {o : Instr} (os : List Instr) (h : exec o s = .next u) :
    runOps (o :: os) s = runOps os u := by
  rw [runOps, h]

/-- Channel `i` of chip `k` has the property `R`, the machine's parameters being `p`. -/
def ChannelIs (p : Params) (k : Nat) (i : ChanIx) (R : Channel → Prop) (s : State) : Prop :=
  s.params = p ∧ ∃ c, s.chips[k]? = some c ∧ R (c.chan i)

/-- A tick takes the channel to its tick. -/
theorem ChannelIs.tick {R R' : Channel → Prop} (h : ChannelIs p k i R s)
    (hR : ∀ x, R x → R' (x.tick p)) : ∃ u, exec (.tick k) s = .next u ∧ ChannelIs p k i R' u := by
  obtain ⟨rfl, c, hc, hx⟩ := h
  obtain ⟨u, hu, hd, ⟨hp, -⟩, -⟩ := completes_chip (exec_tick k s) hc
  exact ⟨u, hu, hp, _, hd, by rw [Chip.mapCh_chan]; exact hR _ hx⟩

/-- An observed level takes the channel to its observation of it. -/
theorem ChannelIs.trg {R R' : Channel → Prop} {l : Level} (h : ChannelIs p k i R s)
    (hR : ∀ x, R x → R' (x.trg p l)) :
    ∃ u, exec (.trg k i l) s = .next u ∧ ChannelIs p k i R' u := by
  obtain ⟨rfl, c, hc, hx⟩ := h
  obtain ⟨u, hu, hd, ⟨hp, -⟩, -⟩ := completes_chip (exec_trg k i l s) hc
  exact ⟨u, hu, hp, _, hd, by rw [Chip.updCh_chan_self]; exact hR _ hx⟩

/-- From `n` on, `t` ticks take the channel through `t` members of a family that each tick takes to the next. -/
theorem ChannelIs.ticks {R : Nat → Channel → Prop} (hR : ∀ n x, R n x → R (n + 1) (x.tick p))
    (t : Nat) {n : Nat} (h : ChannelIs p k i (R n) s) :
    ∃ u, runOps (List.replicate t (.tick k)) s = .next u ∧ ChannelIs p k i (R (n + t)) u := by
  induction t generalizing s n with
  | zero => exact ⟨s, rfl, h⟩
  | succ t ih =>
    obtain ⟨u, hu, hnext⟩ := h.tick (hR n)
    obtain ⟨v, hv, hlast⟩ := ih hnext
    exact ⟨v, (runOps_cons _ hu).trans hv, by rwa [Nat.succ_add_eq_add_succ] at hlast⟩

/-- The same for pulses. -/
theorem ChannelIs.pulses {R : Nat → Channel → Prop} {l : Level}
    (hR : ∀ n x, R n x → R (n + 1) ((x.trg p l).trg p (!l))) (t : Nat) {n : Nat}
    (h : ChannelIs p k i (R n) s) :
    ∃ u, runOps (pulses k i l t) s = .next u ∧ ChannelIs p k i (R (n + t)) u := by
  induction t generalizing s n with
  | zero => exact ⟨s, rfl, h⟩
  | succ t ih =>
    obtain ⟨u, hu, hup⟩ := h.trg (R' := fun x => R (n + 1) (x.trg p (!l))) (hR n)
    obtain ⟨v, hv, hdown⟩ := hup.trg fun _ hx => hx
    obtain ⟨w, hw, hlast⟩ := ih hdown
    exact ⟨w, (runOps_cons _ hu).trans ((runOps_cons _ hv).trans hw),
      by rwa [Nat.succ_add_eq_add_succ] at hlast⟩

end Runs

/-! ### Who makes a channel wait (R20, R110) -/

/-- Of the ways in which an operation can write a channel, only a time constant makes one wait that did not. -/
theorem ChannelStep.waitTrig {p : Params} {o : Instr} {k : Nat} {i : ChanIx} {c d : Channel}
    (h : ChannelStep p o k i c d) (hnot : c.run ≠ .waitTrig) (hwait : d.run = .waitTrig) :
    ∃ v, o = .wrTc k i v := by
  cases h with
  | same => exact absurd hwait hnot
  | ctrl _ _ w => exact absurd ((c.writeCtrl_waitTrig_iff p w).1 hwait).2 hnot
  | tc _ _ v => exact ⟨v, rfl⟩
  | trg _ _ l =>
    obtain ⟨_, _, _, _, _, _, he, rfl | ⟨hw, -⟩⟩ := c.trg_frame p l
    · rw [he] at hwait
      exact absurd hwait hnot
    · exact absurd hw hnot
  | tick =>
    obtain ⟨_, _, _, _, he⟩ := c.tick_frame p
    rw [he] at hwait
    exact absurd hwait hnot
  | reset => cases hwait
  | ack => exact absurd hwait hnot
  | reti => exact absurd hwait hnot

/-! ### The statements -/

/-- Settles O17: a tick takes the channel after `t` ticks to the one after `t + 1`, where the counter has counted the whole periods of the prescaler. -/
theorem timerLaw : Obligations.TimerLaw := by
  rintro s p k c i P T t rfl hc hm hrun hpsc htc hdown hT hP
  obtain rfl : P = (c.chan i).prescale s.params := hP
  have hstart : TimedFrom (c.chan i) ((c.chan i).prescale s.params) T 0 (c.chan i) :=
    ⟨by rw [Nat.zero_div]; exact .zero htc hdown hrun, by rw [hpsc, Nat.zero_mod]⟩
  obtain ⟨u, hu, -, d, hd, htimed⟩ :=
    ChannelIs.ticks (fun _ _ h => h.tick hT hm) t ⟨rfl, c, hc, hstart⟩
  rw [Nat.zero_add] at htimed
  have hexp := htimed.expiresOnTick_iff hT hm
  obtain ⟨⟨-, hdtc, hdrun, hddown, hdzc⟩, hdpsc⟩ := htimed
  refine ⟨u, d, hu, hd, ?down, hdpsc, hdtc, hdrun, hexp, ?output⟩
  case down => rw [hddown, Nat.mod_mul_right_div_self]
  case output => rw [hdzc, Nat.div_div_eq_div_mul]

/-- Settles O18: a pulse takes the channel after `N` counts, its input at rest, to the one after `N + 1`. -/
theorem counterLaw : Obligations.CounterLaw := by
  rintro s p k c i T N rfl hc hm hrun htc hdown hT hext
  have hstart : CountedFrom (c.chan i) T 0 (c.chan i) := .zero htc hdown hrun
  obtain ⟨u, hu, -, d, hd, hcount, hrest⟩ :=
    ChannelIs.pulses (R := fun n x => CountedFrom (c.chan i) T n x ∧
      x.extLevel = !(c.chan i).rising s.params)
      (fun _ _ h => h.1.pulse hT hm h.2) N ⟨rfl, c, hc, hstart, hext⟩
  rw [Nat.zero_add] at hcount
  obtain ⟨-, hdtc, hdrun, hddown, hdzc⟩ := hcount
  exact ⟨u, d, hu, hd, hddown, hdtc, hdrun, hrest.trans hext.symm, hdzc⟩

/-- Settles O19: a tick passes over a channel that is not armed, a qualifying edge starts one that waits, and of the ways to write a channel only a time constant makes one wait. -/
theorem startOnTrigger : Obligations.StartOnTrigger := by
  refine ⟨fun s k c i hc hw => ⟨⟨_, completes_chip (exec_tick k s) hc, ?tick⟩, fun hext =>
    ⟨_, completes_chip (exec_trg k i _ s) hc, ?edge⟩⟩,
    fun s t o k i c d h hc hd hnot hwait => ?only⟩
  case tick => rw [Chip.mapCh_chan, Channel.tick_of_not_ticking (by simp [hw])]
  case edge =>
    rw [Chip.updCh_chan_self, Channel.trg_of_waitTrig (by simp [hext]) rfl hw]
    exact ⟨rfl, rfl, rfl, rfl, rfl⟩
  case only => exact (exec_channel h hc hd i).waitTrig hnot hwait

end Sys2Proof.Machine
end

section
/-! The chain as a whole (spec/43_daisy_chain.md R140, R144, R145) and the enable of a pending request (spec/40_channel_write_read.md R83). -/

namespace Sys2Proof.Machine

/-! ### A chip with one pending request (R83) -/

/-- A chip that has been reset, whose only request is that of channel `i`, pending, and that channel waits for no trigger. -/
structure Chip.OnlyPending (i : ChanIx) (c : Chip) : Prop where
  inited : c.inited = true
  run : (c.chan i).run ≠ .waitTrig
  pending : (c.chan i).intState = .pending
  others : ∀ j : ChanIx, j ≠ i → (c.chan j).intState = .none

/-- Whether such a chip requests is up to the enable of that channel. -/
theorem Chip.OnlyPending.localStatus {i : ChanIx} {c : Chip} (h : c.OnlyPending i) (p : Params) :
    c.localStatus p = if (c.chan i).intEn p then .pending else .none := by
  have hidle : c.anyAsserted = false := c.anyAsserted_eq_false_iff.2 fun j => by
    by_cases hj : j = i
    · simp [hj, h.pending]
    · simp [h.others j hj]
  have hreq : c.anyPending p = (c.chan i).intEn p := by
    rw [Bool.eq_iff_iff, c.anyPending_iff]
    refine ⟨fun ⟨j, hen, hj⟩ => ?_, fun hen => ⟨i, hen, h.pending⟩⟩
    by_cases hji : j = i
    · rwa [← hji]
    · cases (h.others j hji).symm.trans hj
  rw [Chip.localStatus, hidle, hreq]
  rfl

/-- A control word without a reset to that channel completes, keeps the request, and decides by its enable whether the chip shows it. -/
theorem Chip.OnlyPending.wrCtrl {s : State} {k : Nat} {c : Chip} {i : ChanIx} {w : ControlWord}
    (h : c.OnlyPending i) (hc : s.chips[k]? = some c) (hL : s.params.cwLayout.wf = true)
    (hr : w.swReset = false) : ∃ (t : State) (d : Chip), exec (.wrCtrl k i w) s = .next t ∧
      t.params = s.params ∧ t.chips[k]? = some d ∧ d.OnlyPending i ∧
      d.localStatus s.params = if w.intEn then .pending else .none := by
  have hd : (c.chan i).dropsTriggerWait s.params i w = false :=
    Bool.eq_false_iff.2 fun hd =>
      have ⟨_, hwait, _⟩ := (Channel.dropsTriggerWait_iff ..).1 hd
      h.run hwait
  obtain ⟨t, ht, htc, ⟨hp, -⟩, -⟩ := wrCtrl_completes hc h.inited hd
  have hkeep : (c.updCh i (Channel.writeCtrl s.params w)).OnlyPending i := by
    refine ⟨h.inited, ?_, ?_, fun j hj => by rw [Chip.updCh_chan_ne i j _ c hj, h.others j hj]⟩
    · rw [Chip.updCh_chan_self]
      exact fun hw => h.run ((Channel.writeCtrl_waitTrig_iff ..).1 hw).2
    · rw [Chip.updCh_chan_self, Channel.writeCtrl_intState, hr]
      exact h.pending
  refine ⟨t, _, ht, hp, htc, hkeep, ?_⟩
  rw [hkeep.localStatus s.params, Chip.updCh_chan_self, Channel.intEn, Channel.writeCtrl_cw _ _ _ hL]

/-! ### Chains -/

/-- Changes of one chip follow on each other. -/
theorem OnlyChip.trans {k : Nat} {s t u : State} (h : OnlyChip k s t) (h' : OnlyChip k t u) :
    OnlyChip k s u := by
  obtain ⟨hp, hr, hl, hc⟩ := h
  obtain ⟨hp', hr', hl', hc'⟩ := h'
  exact ⟨hp'.trans hp, hr'.trans hr, hl'.trans hl, fun j hj => (hc' j hj).trans (hc j hj)⟩

/-- Changes of one channel follow on each other. -/
theorem OnlyChannel.trans {i : ChanIx} {c d e : Chip} (h : OnlyChannel i c d)
    (h' : OnlyChannel i d e) : OnlyChannel i c e := by
  obtain ⟨hi, hv, hc⟩ := h
  obtain ⟨hi', hv', hc'⟩ := h'
  exact ⟨hi'.trans hi, hv'.trans hv, fun j hj => (hc' j hj).trans (hc j hj)⟩

section Chain

variable {s t : State} {cs : List Nat} {ms ms' : List Chip} {k : Nat} {c : Chip}

/-- The chips before a place of a chain are a chain. -/
theorem ChainOf.take (h : ChainOf s cs ms) (n : Nat) : ChainOf s (cs.take n) (ms.take n) := by
  simpa only [ChainOf, List.map_take] using congrArg (List.take n) h

/-- Every chip that a chain names is present. -/
theorem ChainOf.present (h : ChainOf s cs ms) : ∀ k ∈ cs, k < s.chips.length :=
  (s.members?_isSome cs).1 (by rw [s.members?_of cs ms h]; rfl)

/-- A chip that a chain names is one of its members. -/
theorem ChainOf.mem (h : ChainOf s cs ms) (hk : k ∈ cs) (hc : s.chips[k]? = some c) : c ∈ ms := by
  have hmem : some c ∈ ms.map some := h ▸ List.mem_map.2 ⟨k, hk, hc⟩
  simpa using hmem

/-- The member at the place of a number is the chip with that number. -/
theorem ChainOf.getElem?_eq {n : Nat} (h : ChainOf s cs ms) (hk : cs[n]? = some k)
    (hc : s.chips[k]? = some c) : ms[n]? = some c := by
  have hn := congrArg (·[n]?) h
  simpa [hk, hc, eq_comm] using hn

/-- Two states that hold the same chips under the numbers of a list have the same chain there. -/
theorem ChainOf.eq_of_same (h : ChainOf s cs ms) (h' : ChainOf t cs ms')
    (hsame : ∀ k ∈ cs, t.chips[k]? = s.chips[k]?) : ms' = ms := by
  refine (Option.some_injective Chip).list_map ?_
  rw [← h, ← h']
  exact List.map_congr_left hsame

/-- Where `CHAIN.ACK` completes there is a chain with a requester, and the acknowledge is the requester's (R142). -/
theorem chainAck_next (h : exec (.chainAck cs) s = .next t) : ∃ ms k n c, ChainOf s cs ms ∧
    cs[n]? = some k ∧ s.chips[k]? = some c ∧ c.localStatus s.params = .pending ∧
    (∀ x ∈ ms.take n, x.localStatus s.params = .none) ∧ exec (.ack k) s = .next t := by
  obtain ⟨ns, hns, -⟩ := onChain_next ((exec_chainAck cs s).symm.trans h)
  obtain ⟨ms, hms⟩ := exists_chainOf ((s.members?_isSome cs).1 (by rw [hns]; rfl))
  cases hk : chainRequester s.params (cs.zip ms) with
  | none => cases (chainAck_faults hms hk).symm.trans h
  | some k =>
    obtain ⟨n, c, hkn, hcn, hp, hfirst⟩ := (chainRequester_zip s.params hms.length_eq k).1 hk
    exact ⟨ms, k, n, c, hms, hkn, hms.chip hkn hcn, hp, hfirst, (chainAck_eq_ack hms hk).symm.trans h⟩

/-- A chip that does not request stands for nothing in the walk for the requester (R141, R145). -/
theorem chainRequester_insert_none {p : Params} (h : c.localStatus p = .none)
    (xs ys : List (Nat × Chip)) :
    chainRequester p (xs ++ (k, c) :: ys) = chainRequester p (xs ++ ys) := by
  induction xs with
  | nil => simp only [List.nil_append, chainRequester, h]
  | cons x xs ih => simp only [List.cons_append, chainRequester, ih]

/-- The members of a chain in two parts. -/
theorem State.members?_append (s : State) (xs ys : List Nat) : s.members? (xs ++ ys) =
    (s.members? xs).bind fun ms => (s.members? ys).map (ms ++ ·) := by
  induction xs with
  | nil => simp [State.members?]
  | cons x xs ih =>
    rw [List.cons_append, State.members?, ih, State.members?]
    cases s.chip? x <;> cases s.members? xs <;> cases s.members? ys <;> simp

/-- The members of a chain whose head is present. -/
theorem State.members?_cons (hc : s.chips[k]? = some c) (ks : List Nat) :
    s.members? (k :: ks) = (s.members? ks).map ((k, c) :: ·) := by
  rw [State.members?, State.chip?_eq, hc]
  cases s.members? ks <;> rfl

end Chain

/-! ### The statements -/

/-- Settles O25: each of the two words keeps the request (`Chip.OnlyPending.wrCtrl`) and shows it or not by its own enable. -/
theorem disablingIsNotClearing : Obligations.DisablingIsNotClearing := by
  rintro s p k c i w rfl hL hc hi hw hp ho hen hr
  obtain ⟨t, d, ht, htp, hd, hdp, hdst⟩ := Chip.OnlyPending.wrCtrl ⟨hi, hw, hp, ho⟩ hc hL hr
  rw [hen] at hdst
  obtain ⟨u, e, hu, -, he, hep, hest⟩ :=
    hdp.wrCtrl (w := { w with intEn := true }) hd (htp ▸ hL) hr
  exact ⟨t, u, d, e, ht, hd, hdp.pending, hdst, Chip.intOut_of_none hdst,
    ack_faults hd (by rw [htp, hdst]; decide), hu, he, hep.pending, htp ▸ hest⟩

/-- Settles O26: the recursion of `chainIei`, and its closed form `chainIei_iff`. -/
theorem chainEnableIn : Obligations.ChainEnableIn := by
  intro p ms n hn
  exact ⟨rfl, fun c hc => by rw [chainIei, hc], chainIei_iff p ms n hn⟩

/-- Settles O30: the chip acknowledged is the first in service of the chain afterwards, since those before it are as they were, with status NONE, and the channel acknowledged is its only one in service. -/
theorem returnEndsLatestService : Obligations.ReturnEndsLatestService := by
  intro s t cs h
  obtain ⟨ms, k, n, c, hms, hkn, hc, hp, hfirst, hack⟩ := chainAck_next h
  obtain ⟨i, d, -, hpend, -, ⟨t', ht', hd, hst, -⟩, hcd, hdi, -⟩ :=
    (acknowledgeEffect s s.params k c rfl hc).1 hp
  cases hack.symm.trans ht'
  have ⟨_, _, hlen, hother⟩ := hst
  have hdasserted : (d.chan i).intState = .asserted := by rw [hdi]
  have ⟨_, _, hsame⟩ := hcd
  have ⟨hidle, _⟩ := (c.localStatus_pending _).1 hp
  have honly : ∀ j : ChanIx, (d.chan j).intState = .asserted → j = i := fun j hj => by
    by_contra hne
    rw [hsame j hne] at hj
    exact c.anyAsserted_eq_false_iff.1 hidle j hj
  obtain ⟨ms', hms'⟩ : ∃ ms', ChainOf t cs ms' := exists_chainOf (hlen ▸ hms.present)
  have hbefore : ms'.take n = ms.take n := (hms.take n).eq_of_same (hms'.take n) fun j hj =>
    hother j fun hjk => by
      have hn := hfirst c ((hms.take n).mem (hjk ▸ hj) hc)
      cases hn.symm.trans hp
  obtain ⟨u, hu, hreti, htrue⟩ := (chainReturn t cs ms' hms').2 n k d hkn (hms'.getElem?_eq hkn hd)
    ⟨i, hdasserted⟩ (hbefore ▸ fun x hx =>
      have ⟨hxidle, _⟩ := (x.localStatus_none _).1 (hfirst x hx)
      x.anyAsserted_eq_false_iff.1 hxidle)
  obtain ⟨e, ⟨u', hu', he, htu, -⟩, hde, hei⟩ := (returnEffect t k d hd).2 i hdasserted fun j hj =>
    (honly j hj).ge
  cases hreti.symm.trans hu'
  exact ⟨k, i, c, d, e, u, List.mem_of_getElem? hkn, hc, hpend, hst, hd, hcd, hdi, hu, htrue,
    hst.trans htu, he, hcd.trans hde, hei.trans (by rw [hdi])⟩

/-- Settles O31: the outputs of a chip with status NONE, and the walk for the requester that passes over it. -/
theorem middleChipTransparent : Obligations.MiddleChipTransparent := by
  intro s k c xs ys hc hn
  refine ⟨fun iei => Chip.ieo_of_none iei hn, ?_⟩
  rw [exec_chainIrq, exec_chainIrq, onChain, onChain, State.members?_append, State.members?_append,
    State.members?_cons hc]
  cases s.members? xs with
  | none => rfl
  | some ms =>
    cases s.members? ys with
    | none => rfl
    | some ns =>
      simp only [Option.bind_some, Option.map_some, chainRequester_insert_none hn]

end Sys2Proof.Machine
end
